-- ==== Sys2Proof/Word.lean ====
section
/-! DEFINITION. The widths of IRDEC's values (`00_scope.md` R9, `10_state.md` R20). Every value is unsigned (R10). -/

namespace Sys2Proof

/-- A stimulus word (R71). -/
abbrev Word := BitVec 64

/-- A byte of a stored stimulus word, and the character code of a hex digit (R71, R82). -/
abbrev Byte := BitVec 8

/-- An operand field of a stimulus word, `u28` (R71). -/
abbrev Operand := BitVec 28

/-- A mark or a space in µs, `DUR_WIDTH` = 28 bits (R9, R73). -/
abbrev Duration := BitVec 28

/-- The sum of a mark and a space in µs, `DUR_WIDTH + 1` = 29 bits (R11). -/
abbrev PairDuration := BitVec 29

/-- One 16-bit half of a datagram: an accumulator or a field (R21). -/
abbrev Half := BitVec 16

/-- A command id, the button identifier a datagram carries (R78). -/
abbrev CommandId := BitVec 8

/-- The range of `bitsReceived`, 0 to 32 (R24). The values 33 to 63 of the 6-bit register are not values of
this type, as U14 of `93_implementation_defined.md` asks: assumption log 12, DEDUCED, safe. -/
abbrev FramePos := Fin 33

end Sys2Proof
end

