-- ==== Sys2Proof/Config.lean ====
section
/-! DEFINITION. What is fixed for one IRDEC: the protocol constants of `00_scope.md` R8 and the environment
parameters of R9 (the monitor periods, which only claims use, are arguments of the claims: assumption log 5).
No operation reads a constant through a register or changes one (R8, R35). -/

namespace Sys2Proof.Config

/-- `T_BIT1`, µs (R8). -/
def tBit1 : Nat := 1600

/-- `T_LONG`, µs (R8). -/
def tLong : Nat := 2700

/-- `T_LEADER`, µs (R8). -/
def tLeader : Nat := 12500

/-- `T_LEADER_HI`, µs: kept because the source names it; no behaviour depends on it (R8, R105). -/
def tLeaderHi : Nat := 14500

/-- `REPEAT_TIMEOUT_MS` (R8). -/
def repeatTimeoutMs : Nat := 120

/-- `FRAME_BITS` (R8). -/
def frameBits : Nat := 32

/-- `ADDR_BITS` (R8). -/
def addrBits : Nat := 16

/-- `QUIRK_WINDOW` (R8). -/
def quirkWindow : Nat := 8

/-- `QUIRK_RESUME` (R8). -/
def quirkResume : FramePos := 9

/-- The value of the open parameter `NOW0` that `State.reset` takes; `State.resetAt` takes any.
Assumption log 2: DESIGN CHOICE, unsafe; 1000 is where every vector and program of the spec starts. -/
def now0 : Nat := 1000

/-- `BUTTON_TABLE`: total, depends on its operand alone, and nothing else is known of it (R9, R173).
Assumption log 4: DESIGN CHOICE, safe. -/
opaque buttonTable : Operand → CommandId

end Sys2Proof.Config
end

