-- ==== Sys2Proof/Syntax.lean ====
section
/-! DEFINITION. The nine operations of IRDEC (`30_encoding.md` R70, R72) and their one format (R71). -/

namespace Sys2Proof

/-- The protocol option (R2, R23). -/
inductive Protocol where
  | standard
  | zeroAddressVariant
deriving DecidableEq, Repr

/-- An operation with its operands, one constructor per row of `opcode_table.json` (R70, R72). Every operand has
exactly the values its field admits, so every term is a legal operation. -/
inductive Instr where
  | attach (p : Protocol)
  | detach
  | pulse (m s : Duration)
  | tick
  | advance (t : Operand)
  | rdcmd
  | rdhex
  | takenew
  | cmdid (b : Operand)
deriving DecidableEq, Repr

/-- The format `OP-AB`: the three fields of a stimulus word (R71), whatever they hold. -/
structure OpAB where
  opcode : BitVec 8
  a : Operand
  b : Operand
deriving DecidableEq, Repr

end Sys2Proof
end

