-- ==== Sys2Proof/WellFormed.lean ====
section
/-! DEFINITION. When the three fields of a stimulus word are an operation (`30_encoding.md` R72); every other
choice of fields is reserved (R74). An `Instr` needs no check of its own: its operands' types hold no other values. -/

namespace Sys2Proof

/-- The opcodes of R72. -/
def OpAB.opcodeListed (o : OpAB) : Bool :=
  [0x01#8, 0x02#8, 0x03#8, 0x04#8, 0x05#8, 0x10#8, 0x11#8, 0x12#8, 0x13#8].contains o.opcode

/-- `a` is an operand of `PULSE` only; elsewhere it must be 0 (R72). -/
def OpAB.aAllowed (o : OpAB) : Bool :=
  o.opcode == 0x03#8 || o.a == 0#28

/-- `b` is an operand of `PULSE`, `ADVANCE` and `CMDID`, a single bit for `ATTACH`, and elsewhere must be 0 (R72). -/
def OpAB.bAllowed (o : OpAB) : Bool :=
  [0x03#8, 0x05#8, 0x13#8].contains o.opcode || o.b == 0#28 || (o.opcode == 0x01#8 && o.b == 1#28)

/-- The fields are those of an operation (R72). -/
def OpAB.wf (o : OpAB) : Bool :=
  o.opcodeListed && o.aAllowed && o.bAllowed

end Sys2Proof
end

