-- ==== Sys2Proof/Decode.lean ====
section
/-! DEFINITION. The decoder of stimulus words (`30_encoding.md` R71, R72, R74), total on every word and every list
of bytes, and the encoder written from the same tables. -/

namespace Sys2Proof

/-- Why a word or a list of bytes is no operation (R74): each reason of R74 under its own name, and a list of
bytes that ends inside a word. -/
inductive Reserved where
  /-- An opcode R72 does not list. -/
  | opcode (op : BitVec 8)
  /-- A non-zero bit in an `a` field that must be zero. -/
  | operandA (a : Operand)
  /-- A non-zero bit in a `b` field that must be zero. -/
  | operandB (b : Operand)
  /-- `ATTACH` with `b > 1`. -/
  | protocol (b : Operand)
  /-- Fewer than eight bytes are left. -/
  | truncated
deriving DecidableEq, Repr

/-- `Standard` = 0, `ZeroAddressVariant` = 1 (R23, R191). -/
def Protocol.code : Protocol → BitVec 1
  | .standard => 0#1
  | .zeroAddressVariant => 1#1

/-- The protocol a 1-bit code names (R23, R191). -/
def Protocol.ofCode (c : BitVec 1) : Protocol :=
  if c = 0#1 then .standard else .zeroAddressVariant

/-- Cuts the three fields out of a word (R71). -/
def cutFields (w : Word) : OpAB :=
  { opcode := w.extractLsb' 56 8, a := w.extractLsb' 28 28, b := w.extractLsb' 0 28 }

/-- Puts the three fields together (R71). -/
def joinFields (o : OpAB) : Word :=
  o.opcode ++ o.a ++ o.b

/-- An operation that has `b` as its operand: `a` must be 0 (R72). -/
def withB (o : OpAB) (f : Operand → Instr) : Except Reserved Instr :=
  if o.a = 0#28 then .ok (f o.b) else .error (.operandA o.a)

/-- An operation without operands: both fields must be 0 (R72). -/
def bare (o : OpAB) (i : Instr) : Except Reserved Instr :=
  if o.a = 0#28 then if o.b = 0#28 then .ok i else .error (.operandB o.b) else .error (.operandA o.a)

/-- `ATTACH`: `a` must be 0 and `b` at most 1 (R72). -/
def attachOf (o : OpAB) : Except Reserved Instr :=
  if o.a = 0#28 then
    if o.b.toNat ≤ 1 then .ok (.attach (Protocol.ofCode (o.b.extractLsb' 0 1))) else .error (.protocol o.b)
  else .error (.operandA o.a)

/-- The opcode map (R72). -/
def decodeFields (o : OpAB) : Except Reserved Instr :=
  if o.opcode = 0x01#8 then attachOf o
  else if o.opcode = 0x02#8 then bare o .detach
  else if o.opcode = 0x03#8 then .ok (.pulse o.a o.b)
  else if o.opcode = 0x04#8 then bare o .tick
  else if o.opcode = 0x05#8 then withB o .advance
  else if o.opcode = 0x10#8 then bare o .rdcmd
  else if o.opcode = 0x11#8 then bare o .rdhex
  else if o.opcode = 0x12#8 then bare o .takenew
  else if o.opcode = 0x13#8 then withB o .cmdid
  else .error (.opcode o.opcode)

/-- The operation a stimulus word is, or why it is reserved (R72, R74). -/
def decodeWord (w : Word) : Except Reserved Instr :=
  decodeFields (cutFields w)

/-- The word stored in eight bytes, most significant byte first (R71). -/
def wordOfBytes (b7 b6 b5 b4 b3 b2 b1 b0 : Byte) : Word :=
  b7 ++ b6 ++ b5 ++ b4 ++ b3 ++ b2 ++ b1 ++ b0

/-- The eight bytes of a stored word, most significant byte first (R71). -/
def bytesOfWord (w : Word) : List Byte :=
  [w.extractLsb' 56 8, w.extractLsb' 48 8, w.extractLsb' 40 8, w.extractLsb' 32 8,
   w.extractLsb' 24 8, w.extractLsb' 16 8, w.extractLsb' 8 8, w.extractLsb' 0 8]

/-- The operation at the front of a list of bytes, and the bytes after it (R71, R72). -/
def decodeBytes : List Byte → Except Reserved (Instr × List Byte)
  | b7 :: b6 :: b5 :: b4 :: b3 :: b2 :: b1 :: b0 :: rest =>
    match decodeWord (wordOfBytes b7 b6 b5 b4 b3 b2 b1 b0) with
    | .ok i => .ok (i, rest)
    | .error e => .error e
  | _ => .error .truncated

/-- The fields of an operation's stimulus word (R72). -/
def fieldsOf : Instr → OpAB
  | .attach p => { opcode := 0x01#8, a := 0#28, b := p.code.setWidth 28 }
  | .detach => { opcode := 0x02#8, a := 0#28, b := 0#28 }
  | .pulse m s => { opcode := 0x03#8, a := m, b := s }
  | .tick => { opcode := 0x04#8, a := 0#28, b := 0#28 }
  | .advance t => { opcode := 0x05#8, a := 0#28, b := t }
  | .rdcmd => { opcode := 0x10#8, a := 0#28, b := 0#28 }
  | .rdhex => { opcode := 0x11#8, a := 0#28, b := 0#28 }
  | .takenew => { opcode := 0x12#8, a := 0#28, b := 0#28 }
  | .cmdid b => { opcode := 0x13#8, a := 0#28, b := b }

/-- The stimulus word of an operation (R71, R72). -/
def encodeWord (i : Instr) : Word :=
  joinFields (fieldsOf i)

/-- The stored form of an operation (R71). -/
def encode (i : Instr) : List Byte :=
  bytesOfWord (encodeWord i)

/-- The word that `opcode_table.json`'s numbering calls `w`: bit 0 is its least significant bit, and the bits from
`nbits` up are 0. Assumption log 9: DEDUCED from R71. -/
def tableWord (nbits w : Nat) : Word :=
  BitVec.ofNat 64 (w % 2 ^ nbits)

/-- The operation the decoder reads from the stored bytes of that word. -/
def decodeTableWord (nbits w : Nat) : Option Instr :=
  match decodeBytes (bytesOfWord (tableWord nbits w)) with
  | .ok (i, _) => some i
  | .error _ => none

end Sys2Proof
end

