-- ==== Sys2Proof/Machine/State.lean ====
section
/-! DEFINITION. The state of IRDEC (`10_state.md` R20): the two records and the lifecycle register, and beside them
what R38 says belongs to the environment. Its values at reset (R39, R240), and why a step can stop. -/

namespace Sys2Proof.Machine

/-- The lifecycle register (R32); code 3 is never produced and is no value here (U14). -/
inductive Phase where
  | unattached
  | attached
  | detached
deriving DecidableEq, Repr

/-- The classifier's output (R102); no binary coding (D20). -/
inductive Symbol where
  | bit (b : Bool)
  | repeatCode
  | frameBoundary
deriving DecidableEq, Repr

/-- The status the chain of `PULSE` reports upward (R101); no binary coding (D20). -/
inductive Status where
  | incomplete
  | complete
  | repeated
deriving DecidableEq, Repr

/-- The three event kinds and their payload (R80, R213). -/
inductive Event where
  | datagramReceived
  | buttonPressed (c : CommandId)
  | buttonReleased (c : CommandId)
deriving DecidableEq, Repr

/-- What an accessor hands back to the consumer (R81), abstractly: U1 asks for the none sentinel as an option.
The packed forms are in `Ports.lean`. -/
inductive Response where
  /-- `RDCMD`: the latest datagram's command id, or none. -/
  | lastCommand (c : Option CommandId)
  /-- `RDHEX`: exactly eight characters. -/
  | hexString (v : Vector Char 8)
  /-- `TAKENEW`. -/
  | newDatagram (b : Bool)
  /-- `CMDID`. -/
  | commandOf (c : CommandId)
deriving DecidableEq, Repr

/-- Which command ids a button subscription wants: the wildcard has no number (R214). -/
inductive Filter where
  | any
  | exactly (c : CommandId)
deriving DecidableEq, Repr

/-- What a listener subscribes to (R214). -/
inductive Subscription where
  | datagrams
  | presses (f : Filter)
  | releases (f : Filter)
deriving DecidableEq, Repr

/-- An entry of the listener registry: the subscription, and how many events had been emitted when it was made, since
IRDEC does not replay earlier events (R242). Assumption log 10: DESIGN CHOICE, safe. -/
structure Listener where
  sub : Subscription
  since : Nat
deriving DecidableEq, Repr

/-- `ReceiverState` (R20, R23 to R29). -/
structure ReceiverState where
  protocol : Protocol
  bitsReceived : FramePos
  highWord : Half
  lowWord : Half
  addressField : Half
  commandField : Half
  hasUnreadDatagram : Bool
  datagramSeen : Bool
deriving DecidableEq, Repr

/-- `ButtonTrackerState` (R20, R30, R31): the active command with its presence bit, and the repeat
deadline. Milliseconds are unbounded natural numbers, as R13 allows for the `u64`: assumption log 3, DESIGN CHOICE, unsafe
for a timer that wraps. -/
structure ButtonTrackerState where
  activeValid : Bool
  activeCommand : CommandId
  repeatDeadline : Nat
deriving DecidableEq, Repr

/-- What is not IRDEC's state but is carried beside it (R37, R38, R22). -/
structure Environment where
  /-- The external timer's reading in ms (R199), unbounded as R13 allows: assumption log 3. -/
  now : Nat
  /-- The outbound event stream, oldest first (R216). -/
  events : List Event
  /-- The values handed back by the accessors, oldest first (R37, R81). Assumption log 6: DESIGN CHOICE, safe. -/
  returns : List Response
  /-- The publish/subscribe collaborator's listener registry (R214, R227). Assumption log 10. -/
  listeners : List Listener
  /-- The stimulus words not yet applied: the runner's, not IRDEC's (R22). Assumption log 1: DESIGN CHOICE, safe. -/
  stimulus : List Word
deriving DecidableEq, Repr

/-- The whole state: R20's two records and `phase`, and the environment. -/
structure State extends ReceiverState, ButtonTrackerState, Environment where
  phase : Phase
deriving DecidableEq, Repr

/-- Hardware reset with the timer reading `now0` (R39, R240). The registry, the return stream and the stimulus are
the model's own and start empty: assumption logs 1, 6 and 10. -/
def State.resetAt (now0 : Nat) : State where
  protocol := .standard
  bitsReceived := 0
  highWord := 0
  lowWord := 0
  addressField := 0
  commandField := 0
  hasUnreadDatagram := false
  datagramSeen := false
  activeValid := false
  activeCommand := 0
  repeatDeadline := 0
  now := now0
  events := []
  returns := []
  listeners := []
  stimulus := []
  phase := .unattached

/-- The state right after reset. `NOW0` is open (R9); the value taken here is assumption log 2: DESIGN CHOICE, unsafe. -/
def State.reset : State :=
  State.resetAt Config.now0

/-- Faults: there are none, since no operation of IRDEC faults (R210). -/
inductive Fault
deriving DecidableEq, Repr

/-- Why a step gives no meaning. -/
inductive Refusal where
  /-- Raised by `exec` for an operation whose meaning is not written; no arm raises it. Safe. -/
  | notModelled (mnemonic : String)
  /-- Raised by `step` for a reserved stimulus word, with the decoder's reason (R74, U13). Safe: assumption log 11. -/
  | reservedWord (why : Reserved)
deriving DecidableEq, Repr

end Sys2Proof.Machine
end

