-- ==== Sys2Proof/Machine/Flags.lean ====
section
/-! DEFINITION. IRDEC's one-bit state, all of it (R34): `hasUnreadDatagram`, `datagramSeen` and `activeValid` with the
`activeCommand` it guards. -/

namespace Sys2Proof.Machine

/-- The two flags every completion sets (R28, R29, R141). -/
def markDatagram (s : State) : State :=
  { s with hasUnreadDatagram := true, datagramSeen := true }

/-- `TAKENEW` clears the unread flag (R28, R172). -/
def clearUnread (s : State) : State :=
  { s with hasUnreadDatagram := false }

/-- The tracker goes to `Pressed(c)` (R30, R141). -/
def setActive (c : CommandId) (s : State) : State :=
  { s with activeValid := true, activeCommand := c }

/-- The tracker goes to `Idle`; `activeCommand` is then 0 (R30, R160). -/
def clearActive (s : State) : State :=
  { s with activeValid := false, activeCommand := 0 }

/-- `none` is unequal to every command id (R141). -/
def isActive (c : CommandId) (s : State) : Bool :=
  s.activeValid && s.activeCommand == c

/-- The tracker's state: none is `Idle`, `some c` is `Pressed(c)` (R144). -/
def tracker (s : State) : Option CommandId :=
  if s.activeValid then some s.activeCommand else none

end Sys2Proof.Machine
end

