-- ==== Sys2Proof/Machine/Operands.lean ====
section
/-! DEFINITION. What an operation makes of its operands: the duration pair of `PULSE`, the milliseconds of
`ADVANCE`, the shift of one data bit, and what the pulse-capture mechanism delivers. -/

namespace Sys2Proof.Machine

/-- `d = zext_29(mark) + zext_29(space)`, which cannot wrap (R11). -/
def pairDuration (m s : Duration) : PairDuration :=
  m.setWidth 29 + s.setWidth 29

/-- The field that carries a measured length: one too long for it is delivered as the largest value (R73). -/
def capturedDuration (micros : Nat) : Duration :=
  if micros < 2 ^ 28 then BitVec.ofNat 28 micros else BitVec.allOnes 28

/-- `{w[14:0], b}` (R12). -/
def shiftIn (w : Half) (b : Bool) : Half :=
  (w.extractLsb' 0 15).concat b

/-- The command id of a command field, `commandField[15:8]` (R78, R142). -/
def commandIdOf (c : Half) : CommandId :=
  c.extractLsb' 8 8

/-- `now + REPEAT_TIMEOUT_MS` (R13). Assumption log 3. -/
def deadlineAt (now : Nat) : Nat :=
  now + Config.repeatTimeoutMs

/-- `now + t` (R193). Assumption log 3. -/
def laterBy (now : Nat) (t : Operand) : Nat :=
  now + t.toNat

/-- The frame position after one more bit; it stays at 32 (R24, R121). -/
def nextPos (p : FramePos) : FramePos :=
  if h : p.val < Config.frameBits then ⟨p.val + 1, Nat.succ_lt_succ h⟩ else p

end Sys2Proof.Machine
end

