-- ==== Sys2Proof/Machine/Ops.lean ====
section
/-! DEFINITION. The operations every family shares: emitting an event, handing back a value, acting only while
attached, and taking the next stimulus word. Emitting is what IRDEC has in place of taking an exception: it saves
nothing, redirects nothing, and there is no return from it (R219, R220). -/

namespace Sys2Proof.Machine

/-- `emit E`: append to the one ordered event stream (R216). -/
def emit (e : Event) (s : State) : State :=
  { s with events := s.events ++ [e] }

/-- `return v` of an accessor: append to the stream of returned values (R37, R81). Assumption log 6. -/
def respond (r : Response) (s : State) : State :=
  { s with returns := s.returns ++ [r] }

/-- `if S.phase != Attached: ignore` (R101, R160, R190). -/
def whenAttached (f : State → State) (s : State) : State :=
  if s.phase = .attached then f s else s

/-- The next stimulus word and the state with it taken off, or none at the end of the stimulus program (R71, D22). -/
def fetch (s : State) : Option (Word × State) :=
  match s.stimulus with
  | [] => none
  | w :: rest => some (w, { s with stimulus := rest })

/-- Stores a word where `fetch` finds it next. -/
def placeWord (w : Word) (s : State) : State :=
  { s with stimulus := w :: s.stimulus }

/-- Loads a stimulus program from outside the machine, behind what is still to be applied. Assumption log 1. -/
def loadStimulus (ws : List Word) (s : State) : State :=
  { s with stimulus := s.stimulus ++ ws }

end Sys2Proof.Machine
end

