-- ==== Sys2Proof/Machine/Ports.lean ====
section
/-! DEFINITION. The binary forms this spec gives to events and return values (`30_encoding.md` R80 to R82). -/

namespace Sys2Proof.Machine

/-- The character of a hex digit, uppercase (R82). -/
def hexDigit (v : BitVec 4) : Char :=
  if v.toNat < 10 then Char.ofNat (48 + v.toNat) else Char.ofNat (55 + v.toNat)

/-- The four digits of a field, most significant first, zero-padded (R82). -/
def hexField (f : Half) : Vector Char 4 :=
  #v[hexDigit (f.extractLsb' 12 4), hexDigit (f.extractLsb' 8 4), hexDigit (f.extractLsb' 4 4), hexDigit (f.extractLsb' 0 4)]

/-- The event record `{kind[1:0], commandId[7:0]}` (R80). -/
def eventRecord : Event → BitVec 10
  | .datagramReceived => 0#2 ++ 0#8
  | .buttonPressed c => 1#2 ++ c
  | .buttonReleased c => 2#2 ++ c

/-- The event a 10-bit record stands for: kind 3, and a payload with kind 0, are never produced (R80, U14). -/
def eventOfRecord (r : BitVec 10) : Option Event :=
  if r.extractLsb' 8 2 = 0#2 then if r.extractLsb' 0 8 = 0#8 then some .datagramReceived else none
  else if r.extractLsb' 8 2 = 1#2 then some (.buttonPressed (r.extractLsb' 0 8))
  else if r.extractLsb' 8 2 = 2#2 then some (.buttonReleased (r.extractLsb' 0 8))
  else none

/-- `{valid, cmd[7:0]}`; the none sentinel is `0x000` (R81, R170). -/
def packCommand : Option CommandId → BitVec 9
  | none => 0#1 ++ 0#8
  | some c => 1#1 ++ c

/-- The eight characters, first in bits 63:56, each as its ASCII code (R81, R82). Assumption log 13: PRESUMED, safe. -/
def packHex (v : Vector Char 8) : BitVec 64 :=
  v.toList.foldl (fun acc c => acc <<< 8 ||| (BitVec.ofNat 8 c.toNat).setWidth 64) 0

/-- One bit (R81). -/
def packFlag (b : Bool) : BitVec 1 :=
  BitVec.ofBool b

/-- A returned value as it leaves its port: how many bits, and what they are (R81). -/
def responseBits : Response → Nat × Nat
  | .lastCommand c => (9, (packCommand c).toNat)
  | .hexString v => (64, (packHex v).toNat)
  | .newDatagram b => (1, (packFlag b).toNat)
  | .commandOf c => (8, c.toNat)

end Sys2Proof.Machine
end

