-- ==== Sys2Proof/Machine/Accessors.lean ====
section
/-! DEFINITION. The polling accessors (`44_accessors.md` R170 to R175). They act in every phase (R174). -/

namespace Sys2Proof.Machine

/-- `lastButtonCommand()`: the latest datagram's command id, or none if no datagram ever arrived (R170). -/
def lastButtonCommand (s : State) : Option CommandId :=
  if s.datagramSeen then some (commandIdOf s.commandField) else none

/-- `lastDatagramHex()`: address field, then command field; no test of `datagramSeen` (R171). -/
def lastDatagramHex (s : State) : Vector Char 8 :=
  hexField s.addressField ++ hexField s.commandField

/-- `RDCMD` (R170). -/
def execRdcmd (s : State) : Host.Outcome State Fault Refusal :=
  .next (respond (.lastCommand (lastButtonCommand s)) s)

/-- `RDHEX` (R171). -/
def execRdhex (s : State) : Host.Outcome State Fault Refusal :=
  .next (respond (.hexString (lastDatagramHex s)) s)

/-- `TAKENEW`: the old flag is returned and the flag is left 0 (R61, R172). -/
def execTakenew (s : State) : Host.Outcome State Fault Refusal :=
  .next (respond (.newDatagram s.hasUnreadDatagram) (clearUnread s))

/-- `CMDID b`: a pure lookup (R173). -/
def execCmdid (b : Operand) (s : State) : Host.Outcome State Fault Refusal :=
  .next (respond (.commandOf (Config.buttonTable b)) s)

end Sys2Proof.Machine
end

