-- ==== Sys2Proof/Machine/Lifecycle.lean ====
section
/-! DEFINITION. Attachment, detachment and time (`45_lifecycle.md` R190 to R193, R199). -/

namespace Sys2Proof.Machine

/-- `protocol <- p`, `phase <- Attached`, from `Unattached` only (R191). -/
def attach (p : Protocol) (s : State) : State :=
  if s.phase = .unattached then { s with protocol := p, phase := .attached } else s

/-- `phase <- Detached` and nothing else: no event, and the tracker keeps its values (R192). -/
def detach (s : State) : State :=
  { s with phase := .detached }

/-- `ATTACH p` (R191). -/
def execAttach (p : Protocol) (s : State) : Host.Outcome State Fault Refusal :=
  .next (attach p s)

/-- `DETACH`: ignored unless attached (R192). -/
def execDetach (s : State) : Host.Outcome State Fault Refusal :=
  .next (whenAttached detach s)

/-- `ADVANCE t`: the environment's timer moves, in every phase; nothing in IRDEC happens (R193). -/
def execAdvance (t : Operand) (s : State) : Host.Outcome State Fault Refusal :=
  .next { s with now := laterBy s.now t }

end Sys2Proof.Machine
end

