-- ==== Sys2Proof/Machine/Monitor.lean ====
section
/-! DEFINITION. The Timeout Monitor, `TICK` (`43_monitor.md` R160 to R165). -/

namespace Sys2Proof.Machine

/-- The deadline has passed, strictly, and a button is active (R14, R160). -/
def expired (s : State) : Bool :=
  s.activeValid && decide (s.repeatDeadline < s.now)

/-- One run of the monitor's check (R160). -/
def monitorCheck (s : State) : State :=
  if expired s then clearActive (emit (.buttonReleased s.activeCommand) s) else s

/-- `TICK`: ignored unless attached (R160). -/
def execTick (s : State) : Host.Outcome State Fault Refusal :=
  .next (whenAttached monitorCheck s)

end Sys2Proof.Machine
end

