-- ==== Sys2Proof/Machine/Assembler.lean ====
section
/-! DEFINITION. The Datagram Assembler, `appendBit` (`41_assembler.md` R120 to R129). -/

namespace Sys2Proof.Machine

/-- Step 2's shift and step 3: the bit enters `highWord` at position `n` (R122). -/
def placeHigh (n : FramePos) (b : Bool) (s : State) : State :=
  { s with bitsReceived := n, highWord := shiftIn s.highWord b }

/-- Step 4: the bit enters `lowWord` at position `n` (R122). -/
def placeLow (n : FramePos) (b : Bool) (s : State) : State :=
  { s with bitsReceived := n, lowWord := shiftIn s.lowWord b }

/-- Quirk recovery: the bit is taken for position 9, what was there is discarded (R123). -/
def quirkRecover (s : State) : State :=
  { s with bitsReceived := Config.quirkResume, highWord := 1 }

/-- When quirk recovery fires for a bit that would be position `n` (R123). -/
def quirkFires (n : FramePos) (b : Bool) (s : State) : Bool :=
  decide (n.val ≤ Config.quirkWindow) && (s.protocol == .zeroAddressVariant && b)

/-- Steps 1 to 4: one data bit takes its place in the frame (R122). -/
def placeBit (b : Bool) (s : State) : State :=
  if quirkFires (nextPos s.bitsReceived) b s then quirkRecover s
  else if (nextPos s.bitsReceived).val ≤ Config.addrBits then placeHigh (nextPos s.bitsReceived) b s
  else placeLow (nextPos s.bitsReceived) b s

/-- Step 5's copy of the accumulators (R124). -/
def publish (s : State) : State :=
  { s with addressField := s.highWord, commandField := s.lowWord }

/-- Step 5: the datagram is complete when the count is 32 (R122, R124). -/
def finishBit (s : State) : Status × State :=
  if s.bitsReceived.val = Config.frameBits then (.complete, publish s) else (.incomplete, s)

/-- `appendBit`, with the guard of R121 before the five steps of R122. -/
def appendBit (b : Bool) (s : State) : Status × State :=
  if s.bitsReceived.val = Config.frameBits then (.incomplete, s) else finishBit (placeBit b s)

end Sys2Proof.Machine
end

