-- ==== Sys2Proof/Machine/Classifier.lean ====
section
/-! DEFINITION. The Pulse Classifier (`40_classifier.md` R102 to R107). -/

namespace Sys2Proof.Machine

/-- Resynchronisation: the next data bit is position 1 (R53, R104). -/
def resync (s : State) : State :=
  { s with bitsReceived := 0 }

/-- `classify`: total, reads no state, and its only write is the reset of `bitsReceived` (R103, R104).
`T_LEADER_HI` is not tested, since both sides of it behave alike (R105). -/
def classify (d : PairDuration) (s : State) : Symbol × State :=
  if d.toNat < Config.tBit1 then (.bit false, s)
  else if d.toNat < Config.tLong then (.bit true, s)
  else if d.toNat < Config.tLeader then (.repeatCode, resync s)
  else (.frameBoundary, resync s)

end Sys2Proof.Machine
end

