-- ==== Sys2Proof/Machine/Tracker.lean ====
section
/-! DEFINITION. The Button State Tracker, `onComplete` and `onRepeat` (`42_tracker.md` R140 to R148). -/

namespace Sys2Proof.Machine

/-- The deadline is loaded by every completion and every repeat code, also while `Idle` (R31, R143, R223). -/
def refreshDeadline (s : State) : State :=
  { s with repeatDeadline := deadlineAt s.now }

/-- The previous command is released, if there is one (R141). -/
def releasePrevious (s : State) : State :=
  if s.activeValid then emit (.buttonReleased s.activeCommand) s else s

/-- `newCommand` becomes the active command; nothing is emitted if it already is (R141, R146). -/
def pressCommand (c : CommandId) (s : State) : State :=
  if isActive c s then s else setActive c (emit (.buttonPressed c) (releasePrevious s))

/-- `onComplete` (R141). -/
def onComplete (s : State) : State :=
  pressCommand (commandIdOf s.commandField) (refreshDeadline (emit .datagramReceived (markDatagram s)))

/-- `onRepeat`: the deadline and nothing else (R143). -/
def onRepeat (s : State) : State :=
  refreshDeadline s

end Sys2Proof.Machine
end

