-- ==== Sys2Proof/Machine/Pulse.lean ====
section
/-! DEFINITION. `PULSE`, the entry point of the capture context (`40_classifier.md` R100, R101). -/

namespace Sys2Proof.Machine

/-- The completion handler runs when appendBit returned `Complete` (R101, R140). -/
def afterBit (r : Status × State) : Status × State :=
  match r.1 with
  | .complete => (.complete, onComplete r.2)
  | .incomplete => (.incomplete, r.2)
  | .repeated => (.repeated, r.2)

/-- What follows the classifier's symbol, with the status reported upward (R101). -/
def afterSymbol (r : Symbol × State) : Status × State :=
  match r.1 with
  | .bit b => afterBit (appendBit b r.2)
  | .repeatCode => (.repeated, onRepeat r.2)
  | .frameBoundary => (.incomplete, r.2)

/-- The chain classifier, assembler, tracker, in one atomic step (R100, R101). -/
def pulseChain (m s : Duration) (st : State) : Status × State :=
  afterSymbol (classify (pairDuration m s) st)

/-- `PULSE m, s`: returns nothing, ignored unless attached (R101). -/
def execPulse (m s : Duration) (st : State) : Host.Outcome State Fault Refusal :=
  .next (whenAttached (fun st => (pulseChain m s st).2) st)

end Sys2Proof.Machine
end

