-- ==== Sys2Proof/Machine/Dispatch.lean ====
section
/-! DEFINITION. One arm per operation of `30_encoding.md` R72. -/

namespace Sys2Proof.Machine

def exec (i : Instr) (s : State) : Host.Outcome State Fault Refusal :=
  match i with
  | .attach p => Sys2Proof.Machine.execAttach p s
  | .detach => Sys2Proof.Machine.execDetach s
  | .pulse m sp => Sys2Proof.Machine.execPulse m sp s
  | .tick => Sys2Proof.Machine.execTick s
  | .advance t => Sys2Proof.Machine.execAdvance t s
  | .rdcmd => Sys2Proof.Machine.execRdcmd s
  | .rdhex => Sys2Proof.Machine.execRdhex s
  | .takenew => Sys2Proof.Machine.execTakenew s
  | .cmdid b => Sys2Proof.Machine.execCmdid b s

end Sys2Proof.Machine
end

