-- ==== Sys2Proof/Machine/Step.lean ====
section
/-! DEFINITION. One step: the next stimulus word is taken, decoded and applied (`30_encoding.md` R71, R74; R57, D22). -/

namespace Sys2Proof.Machine

/-- One operation of the stimulus program. A reserved word is refused (R74). When nothing is requested nothing
happens: IRDEC is reactive (R22), and the end state of a run stays as it is (D22). Assumption log 1. -/
def step (s : State) : Host.Outcome State Fault Refusal :=
  match fetch s with
  | none => .next s
  | some (w, s') =>
    match decodeWord w with
    | .ok i => exec i s'
    | .error e => .refused (.reservedWord e)

/-- `s` with the word that `opcode_table.json`'s numbering calls `w` as the next one to be applied. Assumption log 1. -/
def State.withFetchWord (s : State) (nbits w : Nat) : State :=
  placeWord (tableWord nbits w) s

end Sys2Proof.Machine
end

