-- ==== Sys2Proof/Machine/Assembly.lean ====
section
/-! DEFINITION. The text form of a stimulus program and its pseudo-operations (`30_encoding.md` R83, R84). It is a
test-bench notation, not a port of the block. -/

namespace Sys2Proof.Machine

/-- A pseudo-operation (R84). -/
inductive Pseudo where
  | leader
  | bit0
  | bit1
  | rpt
  | gap
  | byte (v : BitVec 8)
  | frame (a c : Half)
deriving DecidableEq, Repr

/-- `BIT0` or `BIT1` (R84). -/
def bitPulse (b : Bool) : Instr :=
  if b then .pulse 500 1500 else .pulse 500 500

/-- `BYTE v`: `v[7]` first (R84). -/
def bytePulses (v : BitVec 8) : List Instr :=
  [7, 6, 5, 4, 3, 2, 1, 0].map fun i => bitPulse (v.getLsbD i)

/-- The expansion of a pseudo-operation (R84). -/
def Pseudo.expand : Pseudo → List Instr
  | .leader => [.pulse 9000 4000]
  | .bit0 => [bitPulse false]
  | .bit1 => [bitPulse true]
  | .rpt => [.pulse 4000 1000]
  | .gap => [.pulse 500 40000]
  | .byte v => bytePulses v
  | .frame a c =>
    .pulse 9000 4000 :: bytePulses (a.extractLsb' 8 8) ++ bytePulses (a.extractLsb' 0 8) ++
      bytePulses (c.extractLsb' 8 8) ++ bytePulses (c.extractLsb' 0 8)

/-- The value of a digit in a base up to 16. -/
def digitValue (base : Nat) (c : Char) : Option Nat :=
  let v := if '0' ≤ c ∧ c ≤ '9' then c.toNat - 48
    else if 'a' ≤ c ∧ c ≤ 'f' then c.toNat - 87
    else if 'A' ≤ c ∧ c ≤ 'F' then c.toNat - 55 else 16
  if v < base then some v else none

/-- A non-empty run of digits. -/
def digits (base : Nat) : List Char → Option Nat
  | [] => none
  | cs => cs.foldl (fun acc c => acc.bind fun n => (digitValue base c).map (n * base + ·)) (some 0)

/-- An operand, decimal or `0x` hexadecimal (R83). -/
def number : List Char → Option Nat
  | '0' :: 'x' :: cs => digits 16 cs
  | cs => digits 10 cs

/-- A number that fits in `w` bits. -/
def fitting (w n : Nat) : Option (BitVec w) :=
  if n < 2 ^ w then some (BitVec.ofNat w n) else none

/-- Spaces and tabs off both ends. Assumption log 14. -/
def trim (cs : List Char) : List Char :=
  let blank := fun c => c == ' ' || c == '\t'
  ((cs.dropWhile blank).reverse.dropWhile blank).reverse

/-- The pieces between commas. -/
def commaSplit : List Char → List (List Char)
  | [] => [[]]
  | c :: cs =>
    if c == ',' then [] :: commaSplit cs
    else match commaSplit cs with
      | p :: ps => (c :: p) :: ps
      | [] => [[c]]

/-- The operands of a line: none, or numbers separated by commas (R83). -/
def operands (cs : List Char) : Option (List Nat) :=
  match trim cs with
  | [] => some []
  | cs => (commaSplit cs).mapM fun p => number (trim p)

/-- The operations of one mnemonic with its operands; those that must be zero are not written (R83, R84). -/
def assembleOp (mnemonic : List Char) (args : List Nat) : Option (List Instr) :=
  match String.ofList mnemonic, args with
  | "ATTACH", [p] => (fitting 1 p).map fun p => [.attach (Protocol.ofCode p)]
  | "DETACH", [] => some [.detach]
  | "PULSE", [m, s] => (fitting 28 m).bind fun m => (fitting 28 s).map fun s => [.pulse m s]
  | "TICK", [] => some [.tick]
  | "ADVANCE", [t] => (fitting 28 t).map fun t => [.advance t]
  | "RDCMD", [] => some [.rdcmd]
  | "RDHEX", [] => some [.rdhex]
  | "TAKENEW", [] => some [.takenew]
  | "CMDID", [b] => (fitting 28 b).map fun b => [.cmdid b]
  | "LEADER", [] => some Pseudo.leader.expand
  | "BIT0", [] => some Pseudo.bit0.expand
  | "BIT1", [] => some Pseudo.bit1.expand
  | "RPT", [] => some Pseudo.rpt.expand
  | "GAP", [] => some Pseudo.gap.expand
  | "BYTE", [v] => (fitting 8 v).map fun v => (Pseudo.byte v).expand
  | "FRAME", [a, c] => (fitting 16 a).bind fun a => (fitting 16 c).map fun c => (Pseudo.frame a c).expand
  | _, _ => none

/-- One line: mnemonic, operands, and a comment after `;` (R83). A blank line holds no operation. Assumption log 14. -/
def assembleLine (line : List Char) : Option (List Instr) :=
  match trim (line.takeWhile (· != ';')) with
  | [] => some []
  | cs =>
    let mnemonic := cs.takeWhile fun c => c != ' ' && c != '\t'
    (operands (cs.drop mnemonic.length)).bind (assembleOp mnemonic)

/-- A stimulus program, one line each, as stimulus words (R71, R83). -/
def assemble (lines : List (List Char)) : Option (List Word) :=
  (lines.mapM assembleLine).map fun is => is.flatten.map encodeWord

end Sys2Proof.Machine
end

