-- ==== Sys2Proof/Machine/Listeners.lean ====
section
/-! DEFINITION. The publish/subscribe collaborator at its interface: what it promises a listener
(`60_exceptions.md` R214, R227, `70_reset_and_hazards.md` R242). When handlers run is outside the spec (R216, R220). -/

namespace Sys2Proof.Machine

/-- `Any` receives every event of the kind, `Exactly(c)` those with payload `c` (R214). -/
def Filter.accepts : Filter → CommandId → Bool
  | .any, _ => true
  | .exactly c, d => c == d

/-- Whether a subscription receives an event (R214). -/
def Subscription.receives : Subscription → Event → Bool
  | .datagrams, .datagramReceived => true
  | .datagrams, .buttonPressed _ => false
  | .datagrams, .buttonReleased _ => false
  | .presses _, .datagramReceived => false
  | .presses f, .buttonPressed c => f.accepts c
  | .presses _, .buttonReleased _ => false
  | .releases _, .datagramReceived => false
  | .releases _, .buttonPressed _ => false
  | .releases f, .buttonReleased c => f.accepts c

/-- A listener subscribes, from outside and between operations (R242). Assumption log 10. -/
def subscribe (q : Subscription) (s : State) : State :=
  { s with listeners := s.listeners ++ [{ sub := q, since := s.events.length }] }

/-- What a listener has been sent: the matching events emitted since it subscribed, in stream order (R214, R242). -/
def received (l : Listener) (s : State) : List Event :=
  (s.events.drop l.since).filter l.sub.receives

end Sys2Proof.Machine
end

