-- ==== Sys2Proof/Safety.lean ====
section
/-! DEFINITION. The terms claims about IRDEC are made in: the invariants, runs of operations, the event stream read
as presses and releases, frames of data bits, the unguarded assembler of the source, a monitor that keeps its
periods, and what each party may read. No operation uses anything of this file. -/

namespace Sys2Proof.Machine

/-- The invariants of `10_state.md` R33 that the types do not carry already (`bitsReceived` is at most 32 and
`phase` is never 3 by type). -/
abbrev ReachableInv (s : State) : Prop :=
  (s.activeValid = false → s.activeCommand = 0) ∧
  (s.datagramSeen = false →
    s.addressField = 0 ∧ s.commandField = 0 ∧ s.hasUnreadDatagram = false ∧ s.activeValid = false) ∧
  (s.hasUnreadDatagram = true → s.datagramSeen = true) ∧
  (s.activeValid = true → s.datagramSeen = true) ∧
  (s.phase = .unattached →
    s.toReceiverState = State.reset.toReceiverState ∧ s.toButtonTrackerState = State.reset.toButtonTrackerState)

/-- One event read as a move of the press/release state machine (R144, R146): pressing while pressed, or releasing
anything but what is pressed, is no move. -/
def trackEvent : Option CommandId → Event → Option (Option CommandId)
  | t, .datagramReceived => some t
  | none, .buttonPressed c => some (some c)
  | some _, .buttonPressed _ => none
  | none, .buttonReleased _ => none
  | some a, .buttonReleased c => if a = c then some none else none

/-- The tracker state an event stream leads to from `Idle`, or none if presses and releases do not alternate (R146). -/
def replay (es : List Event) : Option (Option CommandId) :=
  es.foldlM trackEvent none

/-- Operations applied one after the other (R57). -/
def runOps : List Instr → State → Host.Outcome State Fault Refusal
  | [], s => .next s
  | i :: is, s =>
    match exec i s with
    | .next t => runOps is t
    | .fault r => .fault r
    | .refused r => .refused r

/-- The data bit a mark/space pair carries, if it carries one (R76). -/
def dataBit (p : Duration × Duration) : Option Bool :=
  if p.1.toNat + p.2.toNat < 1600 then some false
  else if p.1.toNat + p.2.toNat < 2700 then some true
  else none

/-- The pulses of a list of mark/space pairs, in arrival order (R100). -/
def pulses (ps : List (Duration × Duration)) : List Instr :=
  ps.map fun p => .pulse p.1 p.2

/-- Bits read most significant first (R50). -/
def msbFirst (bs : List Bool) : Nat :=
  bs.foldl (fun n b => 2 * n + b.toNat) 0

/-- The source's own words for a shift, `highWord << 1 | bit` on a 16-bit accumulator (R12, R122). -/
def sourceShift (w : Half) (b : Bool) : Half :=
  w <<< 1 ||| (BitVec.ofBool b).setWidth 16

/-- The pulse carries the 32nd bit of a frame whose command byte, `commandField >> 8`, is `c` (R124, R142). -/
def completes (m sp : Duration) (s : State) (c : CommandId) : Prop :=
  s.phase = .attached ∧ s.bitsReceived.val = 31 ∧
    ∃ b, dataBit (m, sp) = some b ∧ c = ((sourceShift s.lowWord b) >>> 8).setWidth 8

/-- No operation of the run completes a datagram (R163). -/
def noCompletion : List Instr → State → Prop
  | [], _ => True
  | i :: is, s =>
    (∀ m sp c, i = .pulse m sp → ¬ completes m sp s c) ∧ ∀ t, exec i s = .next t → noCompletion is t

/-- What the capture context may read (R222), but for the `commandField`, which it reads only after writing it (R142). -/
structure CaptureView where
  protocol : Protocol
  bitsReceived : FramePos
  highWord : Half
  lowWord : Half
  activeValid : Bool
  activeCommand : CommandId
  phase : Phase
  now : Nat
deriving DecidableEq, Repr

/-- A state as the capture context sees it (R222). -/
def captureView (s : State) : CaptureView :=
  { protocol := s.protocol, bitsReceived := s.bitsReceived, highWord := s.highWord, lowWord := s.lowWord,
    activeValid := s.activeValid, activeCommand := s.activeCommand, phase := s.phase, now := s.now }

/-- What the monitor task may read (R222). -/
structure MonitorView where
  activeValid : Bool
  activeCommand : CommandId
  repeatDeadline : Nat
  phase : Phase
  now : Nat
deriving DecidableEq, Repr

/-- A state as the monitor task sees it (R222). -/
def monitorView (s : State) : MonitorView :=
  { activeValid := s.activeValid, activeCommand := s.activeCommand, repeatDeadline := s.repeatDeadline,
    phase := s.phase, now := s.now }

/-- The events of a completion with command `c`, given the tracker's state before it (R141). -/
def completionEvents (active : Option CommandId) (c : CommandId) : List Event :=
  match active with
  | none => [.datagramReceived, .buttonPressed c]
  | some o => if o = c then [.datagramReceived] else [.datagramReceived, .buttonReleased o, .buttonPressed c]

/-- Under `ZeroAddressVariant`, what the position reached says of the accumulator: of the bits shifted in, those of
positions 1 to 8 are 0; and the published address byte is 0 (R128). -/
abbrev ZeroAddressInv (s : State) : Prop :=
  s.protocol = .zeroAddressVariant →
    s.addressField.toNat < 256 ∧
    (s.bitsReceived.val < 8 → s.highWord.toNat % 2 ^ s.bitsReceived.val = 0) ∧
    (8 ≤ s.bitsReceived.val → s.highWord.toNat % 2 ^ (min s.bitsReceived.val 16) < 2 ^ (min s.bitsReceived.val 16 - 8))

/-- The state of the source's own assembler, whose count has no bound (R121, C1 of `90_conflicts.md`); the
`bitsReceived` of `st` plays no part in it. -/
structure Unguarded where
  count : Nat
  st : State
deriving DecidableEq, Repr

/-- The source's step 1 to 5 with no guard at 32 (R121, R122). -/
def appendUnguarded (b : Bool) (u : Unguarded) : Status × Unguarded :=
  let n := u.count + 1
  if n ≤ 8 then
    if u.st.protocol = .zeroAddressVariant ∧ b = true then
      (.incomplete, { count := 9, st := { u.st with highWord := 1 } })
    else (.incomplete, { count := n, st := { u.st with highWord := shiftIn u.st.highWord b } })
  else if n ≤ 16 then (.incomplete, { count := n, st := { u.st with highWord := shiftIn u.st.highWord b } })
  else if n < 32 then (.incomplete, { count := n, st := { u.st with lowWord := shiftIn u.st.lowWord b } })
  else if n = 32 then
    (.complete, { count := n, st := { u.st with
      lowWord := shiftIn u.st.lowWord b, addressField := u.st.highWord, commandField := shiftIn u.st.lowWord b } })
  else (.incomplete, { count := n, st := u.st })

/-- `PULSE` over the source's own assembler (R121, R101). -/
def pulseUnguarded (m s : Duration) (u : Unguarded) : Unguarded :=
  if u.st.phase = .attached then
    match dataBit (m, s) with
    | some b =>
      match appendUnguarded b u with
      | (.complete, v) => { v with st := onComplete v.st }
      | (.incomplete, v) => v
      | (.repeated, v) => v
    | none =>
      if m.toNat + s.toNat < 12500 then { count := 0, st := onRepeat u.st } else { count := 0, st := u.st }
  else u

/-- A run over the source's own assembler: only `PULSE` differs (R121). -/
def runUnguarded : List Instr → Unguarded → Option Unguarded
  | [], u => some u
  | .pulse m s :: is, u => runUnguarded is (pulseUnguarded m s u)
  | i :: is, u =>
    match exec i u.st with
    | .next t => runUnguarded is { u with st := t }
    | .fault _ => none
    | .refused _ => none

/-- Every count of 33 or more is 32 here (R121). -/
def clampCount (n : Nat) : FramePos :=
  ⟨min n 32, by omega⟩

/-- The operation neither refreshes the deadline nor halts the monitor (R164). -/
def keepsDeadline : Instr → State → Bool
  | .pulse m sp, s => (pulseChain m sp s).1 == .incomplete
  | .detach, _ => false
  | .attach _, _ => true
  | .tick, _ => true
  | .advance _, _ => true
  | .rdcmd, _ => true
  | .rdhex, _ => true
  | .takenew, _ => true
  | .cmdid _, _ => true

/-- A run with no refresh in which the monitor keeps its periods: at every moment the last `TICK`, at time `last`, is
no further back than the longer of the two periods, which are R9's open parameters (R161, R164). -/
def awaitsRelease (activeMs idleMs : Nat) : List Instr → State → Nat → Prop
  | [], s, last => s.now ≤ last + max activeMs idleMs
  | i :: is, s, last =>
    s.now ≤ last + max activeMs idleMs ∧ keepsDeadline i s = true ∧
      ∀ t, exec i s = .next t → awaitsRelease activeMs idleMs is t (if i = .tick then s.now else last)

end Sys2Proof.Machine
end

