-- ==== Sys2Proof/Certificates/Slice0/Obligations.lean ====
section
/-! DEFINITION. The statements about IRDEC, each formalising the rule of spec/ its docstring cites. -/

open Sys2Proof Sys2Proof.Machine

/-- A stimulus word that decodes is applied: `step` is `exec` of the operation, with the word taken off the
stimulus program. That the program stands in State is the model's choice (log 1). -/
def Obligations.StepAppliesDecodedOperation : Prop :=
  ∀ (s : State) (w : Word) (rest : List Word) (i : Instr),
    s.stimulus = w :: rest → decodeWord w = .ok i → step s = exec i { s with stimulus := rest }

/-- With no request left nothing happens, at `step` and at any number of steps: D22's end of a run. The idle step is
the model's choice (log 1). -/
def Obligations.EmptyStimulusIdles : Prop :=
  ∀ (s : State) (k : Nat), s.stimulus = [] →
    step s = .next s ∧ Host.Core.run Sys2Proof.core k s = .next s

/-- The masks and matches of the nine rows of R72. -/
def stimulusRows : List (Word × Word) :=
  [(0xFFFFFFFFFFFFFFFE#64, 0x0100000000000000#64), (0xFFFFFFFFFFFFFFFF#64, 0x0200000000000000#64),
   (0xFF00000000000000#64, 0x0300000000000000#64), (0xFFFFFFFFFFFFFFFF#64, 0x0400000000000000#64),
   (0xFFFFFFFFF0000000#64, 0x0500000000000000#64), (0xFFFFFFFFFFFFFFFF#64, 0x1000000000000000#64),
   (0xFFFFFFFFFFFFFFFF#64, 0x1100000000000000#64), (0xFFFFFFFFFFFFFFFF#64, 0x1200000000000000#64),
   (0xFFFFFFFFF0000000#64, 0x1300000000000000#64)]

/-- R74: a word that matches no row of R72 is reserved; the decoder reports it and the model refuses it. -/
def Obligations.ReservedWordsRefused : Prop :=
  ∀ (s : State) (w : Word) (rest : List Word),
    s.stimulus = w :: rest → (∀ r ∈ stimulusRows, w &&& r.1 ≠ r.2) →
      ∃ e, decodeWord w = .error e ∧ step s = .refused (.reservedWord e)

/-- R72: a word that matches a row is that row's operation with the operands the row's fields hold, and it matches no
other row. -/
def Obligations.MatchingWordsDecodeToTheirRow : Prop :=
  ∀ w : Word,
    (w &&& 0xFFFFFFFFFFFFFFFE#64 = 0x0100000000000000#64 →
      decodeWord w = .ok (.attach (if w.getLsbD 0 then .zeroAddressVariant else .standard))) ∧
    (w &&& 0xFFFFFFFFFFFFFFFF#64 = 0x0200000000000000#64 → decodeWord w = .ok .detach) ∧
    (w &&& 0xFF00000000000000#64 = 0x0300000000000000#64 →
      decodeWord w = .ok (.pulse (BitVec.ofNat 28 (w.toNat / 2 ^ 28)) (BitVec.ofNat 28 w.toNat))) ∧
    (w &&& 0xFFFFFFFFFFFFFFFF#64 = 0x0400000000000000#64 → decodeWord w = .ok .tick) ∧
    (w &&& 0xFFFFFFFFF0000000#64 = 0x0500000000000000#64 →
      decodeWord w = .ok (.advance (BitVec.ofNat 28 w.toNat))) ∧
    (w &&& 0xFFFFFFFFFFFFFFFF#64 = 0x1000000000000000#64 → decodeWord w = .ok .rdcmd) ∧
    (w &&& 0xFFFFFFFFFFFFFFFF#64 = 0x1100000000000000#64 → decodeWord w = .ok .rdhex) ∧
    (w &&& 0xFFFFFFFFFFFFFFFF#64 = 0x1200000000000000#64 → decodeWord w = .ok .takenew) ∧
    (w &&& 0xFFFFFFFFF0000000#64 = 0x1300000000000000#64 →
      decodeWord w = .ok (.cmdid (BitVec.ofNat 28 w.toNat))) ∧
    (∀ r ∈ stimulusRows, ∀ q ∈ stimulusRows, w &&& r.1 = r.2 → w &&& q.1 = q.2 → r = q)

/-- Decoding the encoding of any operation gives it back, from its word and from its stored bytes with anything after
them. -/
def Obligations.DecodeEncodeAllOperations : Prop :=
  ∀ (i : Instr) (rest : List Byte),
    decodeWord (encodeWord i) = .ok i ∧ decodeBytes (encode i ++ rest) = .ok (i, rest)

/-- Each word has one meaning: a word that decodes is the encoding of what it decodes to, and eight bytes that decode
are its stored form. -/
def Obligations.DecodedWordIsItsEncoding : Prop :=
  (∀ (w : Word) (i : Instr), decodeWord w = .ok i → encodeWord i = w) ∧
  (∀ (bs rest : List Byte) (i : Instr), decodeBytes bs = .ok (i, rest) → bs = encode i ++ rest)

/-- The well-formed choices of the three fields are the operations: R72's conditions on `opcode`, `a` and `b` hold
of exactly the fields that decode. -/
def Obligations.WellFormedFieldsAreOperations : Prop :=
  ∀ o : OpAB, o.wf = true ↔ ∃ i, decodeFields o = .ok i ∧ fieldsOf i = o

/-- A few words of R72, decoded. -/
def Obligations.SampleWordsDecode : Prop :=
  decodeTableWord 64 0x0100000000000001 = some (.attach .zeroAddressVariant) ∧
  decodeTableWord 64 0x0300023280000FA0 = some (.pulse 9000 4000) ∧
  decodeTableWord 64 0x0500000000000078 = some (.advance 120) ∧
  decodeTableWord 64 0x1300000000000012 = some (.cmdid 0x12) ∧
  decodeTableWord 64 0x0100000000000002 = none ∧
  decodeTableWord 64 0x1400000000000000 = none

/-- R39: every field at reset, whatever `NOW0` is. -/
def Obligations.ResetValues : Prop :=
  ∀ now0 : Nat,
    (State.resetAt now0).protocol = .standard ∧ (State.resetAt now0).bitsReceived = 0 ∧
    (State.resetAt now0).highWord = 0 ∧ (State.resetAt now0).lowWord = 0 ∧
    (State.resetAt now0).addressField = 0 ∧ (State.resetAt now0).commandField = 0 ∧
    (State.resetAt now0).hasUnreadDatagram = false ∧ (State.resetAt now0).datagramSeen = false ∧
    (State.resetAt now0).activeValid = false ∧ (State.resetAt now0).activeCommand = 0 ∧
    (State.resetAt now0).repeatDeadline = 0 ∧ (State.resetAt now0).phase = .unattached ∧
    (State.resetAt now0).now = now0 ∧ (State.resetAt now0).events = []

/-- The invariants of the next three statements hold at reset, whatever `NOW0` is. -/
def Obligations.InvariantsHoldAtReset : Prop :=
  ∀ now0 : Nat,
    ReachableInv (State.resetAt now0) ∧ ZeroAddressInv (State.resetAt now0) ∧
    replay (State.resetAt now0).events = some (tracker (State.resetAt now0))

/-- Every step keeps the invariants of `10_state.md` section 4, which the spec derives (R33). -/
def Obligations.StepKeepsReachableInvariants : Prop :=
  ∀ s t : State, ReachableInv s → step s = .next t → ReachableInv t

/-- Presses and releases alternate in the event stream, each release names the command pressed last, and the stream
always tells the tracker's state: every step keeps it. The alternation is what the spec derives in R146. -/
def Obligations.StepKeepsPressReleaseAlternation : Prop :=
  ∀ s t : State, replay s.events = some (tracker s) → step s = .next t → replay t.events = some (tracker t)

/-- Under `ZeroAddressVariant` the published address byte stays zero, which the spec derives in R128: with what the accumulator holds at each
position it is an invariant of every step. -/
def Obligations.StepKeepsZeroAddressByte : Prop :=
  ∀ s t : State, ReachableInv s → ZeroAddressInv s → step s = .next t → ZeroAddressInv t

/-- R210: every operation is total on every state and every operand value. -/
def Obligations.EveryOperationCompletes : Prop :=
  ∀ (i : Instr) (s : State), ∃ t, exec i s = .next t

/-- R104, R107, R143: a duration of at least 2700 µs ends the frame; a repeat code also refreshes the deadline; nothing
else changes. -/
def Obligations.LongDurationsResynchronise : Prop :=
  ∀ (s : State) (m sp : Duration),
    s.phase = .attached → 2700 ≤ m.toNat + sp.toNat →
      exec (.pulse m sp) s = .next { s with
        bitsReceived := 0,
        repeatDeadline := if m.toNat + sp.toNat < 12500 then s.now + 120 else s.repeatDeadline }

/-- A data bit that completes nothing takes its place (R122, R123): quirk recovery; positions 1 to 16, shifted into
`highWord`; positions 17 to 31, shifted into `lowWord`; nothing else changes. -/
def Obligations.DataBitsTakeTheirPlace : Prop :=
  ∀ (s : State) (m sp : Duration) (b : Bool),
    s.phase = .attached → dataBit (m, sp) = some b →
      (s.bitsReceived.val < 8 → s.protocol = .zeroAddressVariant → b = true →
        exec (.pulse m sp) s = .next { s with bitsReceived := 9, highWord := 1 }) ∧
      (s.bitsReceived.val < 16 → ¬(s.bitsReceived.val < 8 ∧ s.protocol = .zeroAddressVariant ∧ b = true) →
        ∃ n : FramePos, n.val = s.bitsReceived.val + 1 ∧
          exec (.pulse m sp) s = .next { s with bitsReceived := n, highWord := sourceShift s.highWord b }) ∧
      (16 ≤ s.bitsReceived.val → s.bitsReceived.val < 31 →
        ∃ n : FramePos, n.val = s.bitsReceived.val + 1 ∧
          exec (.pulse m sp) s = .next { s with bitsReceived := n, lowWord := sourceShift s.lowWord b })

/-- The 32nd bit publishes the datagram and runs the completion handler (R124, R141): every field it changes, its
events in order, and nothing else. -/
def Obligations.CompletingBitPublishesDatagram : Prop :=
  ∀ (s : State) (m sp : Duration) (b : Bool) (c : CommandId),
    s.phase = .attached → s.bitsReceived.val = 31 → dataBit (m, sp) = some b →
    c = ((sourceShift s.lowWord b) >>> 8).setWidth 8 →
      exec (.pulse m sp) s = .next { s with
        bitsReceived := 32, lowWord := sourceShift s.lowWord b,
        addressField := s.highWord, commandField := sourceShift s.lowWord b,
        hasUnreadDatagram := true, datagramSeen := true,
        activeValid := true, activeCommand := c, repeatDeadline := s.now + 120,
        events := s.events ++ completionEvents (tracker s) c }

/-- A data bit that arrives when the count is 32 is ignored (R121's first sentence). -/
def Obligations.BitsAfterCompletionIgnored : Prop :=
  ∀ (s : State) (m sp : Duration) (b : Bool),
    s.phase = .attached → s.bitsReceived.val = 32 → dataBit (m, sp) = some b → exec (.pulse m sp) s = .next s

/-- R24's invariant: within a frame the count goes up by one, it goes to 9 only by quirk recovery and to 0 only by a
long duration, and a datagram is received exactly when it goes from 31 to 32. -/
def Obligations.CountMovesWithinFrame : Prop :=
  ∀ (i : Instr) (s t : State), exec i s = .next t →
    (t.bitsReceived = s.bitsReceived ∨
      ((∃ m sp b, i = .pulse m sp ∧ dataBit (m, sp) = some b) ∧ t.bitsReceived.val = s.bitsReceived.val + 1) ∨
      ((∃ m sp, i = .pulse m sp ∧ dataBit (m, sp) = some true) ∧ t.bitsReceived.val = 9 ∧
        s.bitsReceived.val < 8 ∧ s.protocol = .zeroAddressVariant) ∨
      ((∃ m sp, i = .pulse m sp ∧ dataBit (m, sp) = none) ∧ t.bitsReceived.val = 0)) ∧
    (Event.datagramReceived ∈ t.events.drop s.events.length ↔
      s.bitsReceived.val = 31 ∧ t.bitsReceived.val = 32)

/-- A captured length longer than the operand holds is delivered as the largest value, `0xFFFFFFF`, any other as it is,
and the classifier answers as it would have for the exact lengths (R73, R103). -/
def Obligations.SaturatedDurationsClassifyAlike : Prop :=
  (∀ n : Nat, (2 ^ 28 ≤ n → capturedDuration n = 0xFFFFFFF) ∧ (n < 2 ^ 28 → (capturedDuration n).toNat = n)) ∧
  ∀ (s : State) (mark space : Nat),
    classify (pairDuration (capturedDuration mark) (capturedDuration space)) s =
      if mark + space < 1600 then (.bit false, s)
      else if mark + space < 2700 then (.bit true, s)
      else if mark + space < 12500 then (.repeatCode, { s with bitsReceived := 0 })
      else (.frameBoundary, { s with bitsReceived := 0 })

/-- R145: the tracker's transitions, complete, with their events in order and the deadline. -/
def Obligations.TrackerTransitionTable : Prop :=
  ∀ s t : State, s.phase = .attached →
    (∀ m sp, exec (.pulse m sp) s = .next t →
      (∀ c, completes m sp s c →
        tracker t = some c ∧ t.repeatDeadline = s.now + 120 ∧
        (tracker s = none → t.events = s.events ++ [.datagramReceived, .buttonPressed c]) ∧
        (tracker s = some c → t.events = s.events ++ [.datagramReceived]) ∧
        (∀ o, tracker s = some o → o ≠ c →
          t.events = s.events ++ [.datagramReceived, .buttonReleased o, .buttonPressed c])) ∧
      (2700 ≤ m.toNat + sp.toNat → m.toNat + sp.toNat < 12500 →
        tracker t = tracker s ∧ t.events = s.events ∧ t.repeatDeadline = s.now + 120) ∧
      (12500 ≤ m.toNat + sp.toNat ∨ (m.toNat + sp.toNat < 2700 ∧ s.bitsReceived.val ≠ 31) →
        tracker t = tracker s ∧ t.events = s.events ∧ t.repeatDeadline = s.repeatDeadline)) ∧
    (exec .tick s = .next t →
      t.repeatDeadline = s.repeatDeadline ∧
      (tracker s = none → tracker t = none ∧ t.events = s.events) ∧
      (∀ c, tracker s = some c →
        (s.repeatDeadline < s.now → tracker t = none ∧ t.events = s.events ++ [.buttonReleased c]) ∧
        (s.now ≤ s.repeatDeadline → tracker t = some c ∧ t.events = s.events)))

/-- R160: `TICK` on every state. It releases when attached, active and strictly past the deadline; otherwise it does
nothing. -/
def Obligations.TickReleasesPastDeadline : Prop :=
  ∀ s : State,
    (s.phase = .attached → s.activeValid = true → s.repeatDeadline < s.now →
      exec .tick s = .next { s with
        activeValid := false, activeCommand := 0, events := s.events ++ [.buttonReleased s.activeCommand] }) ∧
    (s.phase ≠ .attached ∨ s.activeValid = false ∨ s.now ≤ s.repeatDeadline → exec .tick s = .next s)

/-- R162: without a `TICK` a pressed button stays pressed, however long the run, and the next different command
releases it through the completion handler. -/
def Obligations.OnlyTickReleasesToIdle : Prop :=
  ∀ (ops : List Instr) (s t : State),
    .tick ∉ ops → tracker s ≠ none → runOps ops s = .next t →
      tracker t ≠ none ∧
      ∀ m sp c o, completes m sp t c → tracker t = some o → o ≠ c →
        ∃ u, exec (.pulse m sp) t = .next u ∧ tracker u = some c ∧
          u.events = t.events ++ [.datagramReceived, .buttonReleased o, .buttonPressed c]

/-- One expiry gives one release (R163): the `TICK` past the deadline emits it, and nothing more is emitted over any run
in which no pulse completes a datagram, whatever data bits, repeat codes and `TICK`s it holds; a completion after such
a run presses again. -/
def Obligations.OneExpiryOneRelease : Prop :=
  ∀ (ops : List Instr) (s : State) (c : CommandId),
    s.phase = .attached → tracker s = some c → s.repeatDeadline < s.now →
      ∃ t, exec .tick s = .next t ∧ t.events = s.events ++ [.buttonReleased c] ∧ tracker t = none ∧
        (noCompletion ops t →
          ∃ u, runOps ops t = .next u ∧ u.events = t.events ∧ tracker u = none ∧
            ∀ m sp d, completes m sp u d →
              ∃ v, exec (.pulse m sp) u = .next v ∧ tracker v = some d ∧
                v.events = u.events ++ [.datagramReceived, .buttonPressed d])

/-- R170: `RDCMD` returns the latest datagram's command id, or none before the first, as the nine bits the rule gives;
it changes nothing. -/
def Obligations.RdcmdReturnsLatestCommand : Prop :=
  ∀ s : State, ∃ r : Option CommandId,
    exec .rdcmd s = .next { s with returns := s.returns ++ [.lastCommand r] } ∧
    (s.datagramSeen = true → r = some ((s.commandField >>> 8).setWidth 8) ∧
      (packCommand r).toNat = 256 + s.commandField.toNat / 256) ∧
    (s.datagramSeen = false → r = none ∧ packCommand r = 0)

/-- R171: `RDHEX` returns eight digits, the address field's four and then the command field's, most significant first
and uppercase; it changes nothing. -/
def Obligations.RdhexReturnsUppercaseDigits : Prop :=
  ∀ s : State, ∃ v : Vector Char 8,
    exec .rdhex s = .next { s with returns := s.returns ++ [.hexString v] } ∧
    ∀ (k : Nat) (h : k < 8),
      ['0', '1', '2', '3', '4', '5', '6', '7', '8', '9', 'A', 'B', 'C', 'D', 'E', 'F'][
        (s.addressField.toNat * 65536 + s.commandField.toNat) / 16 ^ (7 - k) % 16]? = some v[k]

/-- R172: `TAKENEW` returns and clears the unread flag, and an immediate second one returns false. -/
def Obligations.TakenewReturnsAndClears : Prop :=
  ∀ s : State,
    exec .takenew s = .next { s with
      hasUnreadDatagram := false, returns := s.returns ++ [.newDatagram s.hasUnreadDatagram] } ∧
    ∀ t u : State, exec .takenew s = .next t → exec .takenew t = .next u →
      u.returns = t.returns ++ [.newDatagram false]

/-- R173: `CMDID b` returns `BUTTON_TABLE(b)` and changes nothing. It holds whatever the table is (log 4). -/
def Obligations.CmdidLooksUpTable : Prop :=
  ∀ (s : State) (b : Operand),
    exec (.cmdid b) s = .next { s with returns := s.returns ++ [.commandOf (Config.buttonTable b)] }

/-- R191: `ATTACH` selects the protocol from `Unattached`, and is ignored otherwise. -/
def Obligations.AttachSelectsProtocolOnce : Prop :=
  ∀ (s : State) (p : Protocol),
    (s.phase = .unattached → exec (.attach p) s = .next { s with protocol := p, phase := .attached }) ∧
    (s.phase ≠ .unattached → exec (.attach p) s = .next s)

/-- R192: `DETACH` writes `phase` and nothing else, from `Attached`, and no pulse or `TICK` acts after it; it is
ignored otherwise. -/
def Obligations.DetachWritesOnlyPhase : Prop :=
  ∀ s : State,
    (s.phase = .attached → ∃ t, exec .detach s = .next t ∧ t = { s with phase := .detached } ∧
      exec .tick t = .next t ∧ ∀ m sp, exec (.pulse m sp) t = .next t) ∧
    (s.phase ≠ .attached → exec .detach s = .next s)

/-- R193: `ADVANCE t` adds `t` milliseconds to `now`, in every phase, and nothing else happens. -/
def Obligations.AdvanceMovesOnlyTime : Prop :=
  ∀ (s : State) (t : Operand), exec (.advance t) s = .next { s with now := s.now + t.toNat }

/-- `PULSE` and `TICK` are ignored unless attached (R101, R160, R190). -/
def Obligations.CaptureAndMonitorIgnoredUnlessAttached : Prop :=
  ∀ (s : State) (m sp : Duration), s.phase ≠ .attached →
    exec (.pulse m sp) s = .next s ∧ exec .tick s = .next s

/-- The life of IRDEC (R190, R23): the only phase changes are by `ATTACH` from `Unattached` and by `DETACH` from
`Attached`, and `protocol` changes only with the first. -/
def Obligations.PhaseAndProtocolMoveOnlyByHost : Prop :=
  ∀ (i : Instr) (s t : State), exec i s = .next t →
    (t.phase = s.phase ∧ t.protocol = s.protocol) ∨
    (∃ p, i = .attach p ∧ s.phase = .unattached ∧ t.phase = .attached ∧ t.protocol = p) ∨
    (i = .detach ∧ s.phase = .attached ∧ t.phase = .detached ∧ t.protocol = s.protocol)

/-- Time never decreases and moves only by `ADVANCE` (R199), over any run. -/
def Obligations.TimeMovesOnlyByAdvance : Prop :=
  ∀ (ops : List Instr) (s t : State), runOps ops s = .next t →
    s.now ≤ t.now ∧ ((∀ d, .advance d ∉ ops) → t.now = s.now)

/-- Before attachment and after detachment no run has an event or touches the tracker or the receiver, but for the
unread flag that `TAKENEW` clears (R190, R192, R242, R252). -/
def Obligations.SilentUnlessAttached : Prop :=
  ∀ (ops : List Instr) (s : State),
    s.phase = .detached ∨ (s.phase = .unattached ∧ ∀ p, .attach p ∉ ops) →
      ∃ t, runOps ops s = .next t ∧ t.events = s.events ∧ t.phase = s.phase ∧
        t.toButtonTrackerState = s.toButtonTrackerState ∧
        t.toReceiverState = { s.toReceiverState with hasUnreadDatagram := t.hasUnreadDatagram } ∧
        (t.hasUnreadDatagram = true → s.hasUnreadDatagram = true)

/-- The writing half of the ownership table the spec derives in R222: whoever's operation changes a piece of state is a party the table lets write it;
with the environment's fields beside it. -/
def Obligations.WritesFollowOwnership : Prop :=
  ∀ (i : Instr) (s t : State), exec i s = .next t →
    (t.protocol ≠ s.protocol → ∃ p, i = .attach p) ∧
    (t.bitsReceived ≠ s.bitsReceived ∨ t.highWord ≠ s.highWord ∨ t.lowWord ≠ s.lowWord ∨
      t.addressField ≠ s.addressField ∨ t.commandField ≠ s.commandField ∨
      t.repeatDeadline ≠ s.repeatDeadline → ∃ m sp, i = .pulse m sp) ∧
    (s.hasUnreadDatagram = false → t.hasUnreadDatagram = true → ∃ m sp, i = .pulse m sp) ∧
    (s.hasUnreadDatagram = true → t.hasUnreadDatagram = false → i = .takenew) ∧
    (t.datagramSeen ≠ s.datagramSeen → t.datagramSeen = true ∧ ∃ m sp, i = .pulse m sp) ∧
    (t.activeValid ≠ s.activeValid ∨ t.activeCommand ≠ s.activeCommand →
      i = .tick ∨ ∃ m sp, i = .pulse m sp) ∧
    (t.phase ≠ s.phase → i = .detach ∨ ∃ p, i = .attach p) ∧
    (t.now ≠ s.now → ∃ d, i = .advance d) ∧
    t.listeners = s.listeners ∧ t.stimulus = s.stimulus

/-- The reading half of that table, party by party: what an operation writes, and whether it writes, is settled by what
its party may read, for every state that agrees on that much, and the rest stands. Beyond the table, `PULSE` does not
read the `commandField` it finds. -/
def Obligations.ReadsFollowOwnership : Prop :=
  (∀ (m sp : Duration) (view : CaptureView),
    ∃ (count : FramePos) (high low : Half) (published : Option (Half × Half)) (active : Bool) (cmd : CommandId)
        (deadline : Option Nat) (new : List Event),
      ∀ s : State, captureView s = view → exec (.pulse m sp) s = .next { s with
        bitsReceived := count, highWord := high, lowWord := low,
        addressField := (published.map Prod.fst).getD s.addressField,
        commandField := (published.map Prod.snd).getD s.commandField,
        hasUnreadDatagram := published.isSome || s.hasUnreadDatagram,
        datagramSeen := published.isSome || s.datagramSeen,
        activeValid := active, activeCommand := cmd,
        repeatDeadline := deadline.getD s.repeatDeadline, events := s.events ++ new }) ∧
  (∀ view : MonitorView, ∃ (active : Bool) (cmd : CommandId) (new : List Event),
    ∀ s : State, monitorView s = view →
      exec .tick s = .next { s with activeValid := active, activeCommand := cmd, events := s.events ++ new }) ∧
  (∀ (c : Half) (seen : Bool), ∃ r, ∀ s : State, s.commandField = c → s.datagramSeen = seen →
    exec .rdcmd s = .next { s with returns := s.returns ++ [r] }) ∧
  (∀ a c : Half, ∃ r, ∀ s : State, s.addressField = a → s.commandField = c →
    exec .rdhex s = .next { s with returns := s.returns ++ [r] }) ∧
  (∀ unread : Bool, ∃ left r, ∀ s : State, s.hasUnreadDatagram = unread →
    exec .takenew s = .next { s with hasUnreadDatagram := left, returns := s.returns ++ [r] }) ∧
  (∀ b : Operand, ∃ r, ∀ s : State, exec (.cmdid b) s = .next { s with returns := s.returns ++ [r] }) ∧
  (∀ (p : Protocol) (ph : Phase), ∃ (selected : Option Protocol) (ph' : Phase), ∀ s : State, s.phase = ph →
    exec (.attach p) s = .next { s with protocol := selected.getD s.protocol, phase := ph' }) ∧
  (∀ ph : Phase, ∃ ph' : Phase, ∀ s : State, s.phase = ph → exec .detach s = .next { s with phase := ph' })

/-- Events are only ever appended, and the events of one operation are one of R213's lists in R217's order: nothing, a
completion's, or a `TICK`'s release. -/
def Obligations.EventsAppendedInOrder : Prop :=
  ∀ (i : Instr) (s t : State), exec i s = .next t → ∃ new, t.events = s.events ++ new ∧
    (new = [] ∨
      ((∃ m sp, i = .pulse m sp) ∧
        (new = [.datagramReceived] ∨ (∃ c, new = [.datagramReceived, .buttonPressed c]) ∨
          ∃ o c, o ≠ c ∧ new = [.datagramReceived, .buttonReleased o, .buttonPressed c])) ∨
      (i = .tick ∧ ∃ c, new = [.buttonReleased c]))

/-- R218: a completing `PULSE` for the held command and a `TICK` past the deadline, requested together, are taken in
either order, and the two orders differ as the rule says. -/
def Obligations.SimultaneousRequestsEitherOrder : Prop :=
  ∀ (s : State) (m sp : Duration) (c : CommandId),
    completes m sp s c → tracker s = some c → s.repeatDeadline < s.now →
      (∃ t u, exec .tick s = .next t ∧ exec (.pulse m sp) t = .next u ∧
        u.events = s.events ++ [.buttonReleased c, .datagramReceived, .buttonPressed c]) ∧
      (∃ t u, exec (.pulse m sp) s = .next t ∧ exec .tick t = .next u ∧
        u.events = s.events ++ [.datagramReceived] ∧ tracker u = some c)

/-- R214: who receives what. -/
def Obligations.SubscriptionsMatchEvents : Prop :=
  ∀ (f : Filter) (c d : CommandId),
    Subscription.receives .datagrams .datagramReceived = true ∧
    Subscription.receives (.presses .any) (.buttonPressed c) = true ∧
    Subscription.receives (.releases .any) (.buttonReleased c) = true ∧
    (Subscription.receives (.presses (.exactly c)) (.buttonPressed d) = true ↔ d = c) ∧
    (Subscription.receives (.releases (.exactly c)) (.buttonReleased d) = true ↔ d = c) ∧
    Subscription.receives .datagrams (.buttonPressed c) = false ∧
    Subscription.receives .datagrams (.buttonReleased c) = false ∧
    Subscription.receives (.presses f) .datagramReceived = false ∧
    Subscription.receives (.presses f) (.buttonReleased c) = false ∧
    Subscription.receives (.releases f) .datagramReceived = false ∧
    Subscription.receives (.releases f) (.buttonPressed c) = false

/-- Over any run a listener is sent exactly the matching events the run emits, in order. That a listener is held with
the stream position of its subscription is the model's choice (log 10). -/
def Obligations.ListenersReceiveMatchingEvents : Prop :=
  ∀ (ops : List Instr) (s t : State) (l : Listener), l.since ≤ s.events.length → runOps ops s = .next t →
    ∃ new, t.events = s.events ++ new ∧ received l t = received l s ++ new.filter l.sub.receives

/-- R80: the event record's kind and payload bits, and that it can be read back. -/
def Obligations.EventRecordLayout : Prop :=
  eventRecord .datagramReceived = 0 ∧
  (∀ c : CommandId,
    (eventRecord (.buttonPressed c)).toNat = 256 + c.toNat ∧ (eventRecord (.buttonReleased c)).toNat = 512 + c.toNat) ∧
  (∀ e : Event, eventOfRecord (eventRecord e) = some e ∧ (eventRecord e).toNat < 768)

/-- R81, R82: `{valid, cmd}` with the sentinel 0, the first character in bits 63:56, one bit, eight bits; the other
operations return nothing. That a character's byte is its code (ASCII) is the spec's general knowledge, not the
source's: log 13, PRESUMED. -/
def Obligations.ReturnValuePacking : Prop :=
  (responseBits (.lastCommand none) = (9, 0)) ∧
  (∀ c : CommandId, responseBits (.lastCommand (some c)) = (9, 256 + c.toNat) ∧
    responseBits (.commandOf c) = (8, c.toNat)) ∧
  (∀ b : Bool, responseBits (.newDatagram b) = (1, b.toNat)) ∧
  (∀ v : Vector Char 8, (responseBits (.hexString v)).1 = 64 ∧
    ∀ (k : Nat) (h : k < 8), (packHex v).toNat / 256 ^ (7 - k) % 256 = v[k].toNat % 256) ∧
  (∀ (i : Instr) (s t : State), exec i s = .next t →
    i = .detach ∨ i = .tick ∨ (∃ p, i = .attach p) ∨ (∃ m sp, i = .pulse m sp) ∨ (∃ d, i = .advance d) →
      t.returns = s.returns)

/-- R50: 32 data bits from position 1, with no quirk recovery, fill the two fields most significant bit first, and
complete one datagram on the 32nd bit, whatever the accumulators held before (E2). -/
def Obligations.WholeFrameAssembles : Prop :=
  ∀ (s : State) (ps : List (Duration × Duration)) (bs : List Bool),
    s.phase = .attached → s.bitsReceived = 0 → ps.map dataBit = bs.map some → bs.length = 32 →
    s.protocol = .standard ∨ bs.take 8 = List.replicate 8 false →
      (∀ k, k < 32 → ∃ u, runOps (pulses (ps.take k)) s = .next u ∧ u.events = s.events ∧
        u.addressField = s.addressField ∧ u.commandField = s.commandField) ∧
      ∃ t, runOps (pulses ps) s = .next t ∧ t.bitsReceived.val = 32 ∧
        t.addressField.toNat = msbFirst (bs.take 16) ∧ t.commandField.toNat = msbFirst (bs.drop 16) ∧
        t.events = s.events ++ completionEvents (tracker s) (BitVec.ofNat 8 (msbFirst ((bs.drop 16).take 8)))

/-- What the spec derives in R126's second case and R127: under `ZeroAddressVariant`, after fewer than eight 0 bits and then a 1 bit, 23 more
bits complete the datagram, with the fields quirk recovery gives. -/
def Obligations.QuirkFrameAssembles : Prop :=
  ∀ (s : State) (ps : List (Duration × Duration)) (k : Nat) (bs : List Bool),
    s.phase = .attached → s.bitsReceived = 0 → s.protocol = .zeroAddressVariant →
    1 ≤ k → k ≤ 8 → bs.length = 23 →
    ps.map dataBit = (List.replicate (k - 1) false ++ true :: bs).map some →
      (∀ j, j < k + 23 → ∃ u, runOps (pulses (ps.take j)) s = .next u ∧ u.events = s.events ∧
        u.addressField = s.addressField ∧ u.commandField = s.commandField) ∧
      ∃ t, runOps (pulses ps) s = .next t ∧ t.bitsReceived.val = 32 ∧
        t.addressField.toNat = msbFirst (true :: bs.take 7) ∧ t.commandField.toNat = msbFirst (bs.drop 7) ∧
        t.events = s.events ++ completionEvents (tracker s) (BitVec.ofNat 8 (msbFirst ((bs.drop 7).take 8)))

/-- The pseudo-operation `FRAME a, c` delivers the datagram it names (R84), from any attached state under `Standard`
and in any position of the frame before. -/
def Obligations.FrameDeliversItsDatagram : Prop :=
  ∀ (s : State) (a c : Half), s.phase = .attached → s.protocol = .standard →
    ∃ t, runOps (Pseudo.frame a c).expand s = .next t ∧
      t.addressField = a ∧ t.commandField = c ∧ t.hasUnreadDatagram = true ∧ t.bitsReceived.val = 32 ∧
      t.events = s.events ++ completionEvents (tracker s) ((c >>> 8).setWidth 8)

/-- What the spec derives in R126's first sentence: what the accumulators held when the count was last 0 changes no event, no returned value
and no published field, over any run. -/
def Obligations.StaleAccumulatorsUnobservable : Prop :=
  ∀ (s : State) (hw lw : Half) (ops : List Instr), s.bitsReceived = 0 →
    ∃ t t', runOps ops s = .next t ∧ runOps ops { s with highWord := hw, lowWord := lw } = .next t' ∧
      t'.events = t.events ∧ t'.returns = t.returns ∧
      t'.addressField = t.addressField ∧ t'.commandField = t.commandField

/-- What the spec derives in R40: the reset values of `highWord`, `lowWord`, `repeatDeadline` and `protocol` change no event and no returned
value, over any run from reset. -/
def Obligations.ResetValuesUnobservable : Prop :=
  ∀ (now0 dl : Nat) (p : Protocol) (hw lw : Half) (ops : List Instr),
    ∃ t t', runOps ops (State.resetAt now0) = .next t ∧
      runOps ops { State.resetAt now0 with protocol := p, highWord := hw, lowWord := lw, repeatDeadline := dl } = .next t' ∧
      t'.events = t.events ∧ t'.returns = t.returns

/-- What the spec derives in R147: while `Idle` the deadline cannot be observed, over any run. -/
def Obligations.IdleDeadlineUnobservable : Prop :=
  ∀ (s : State) (dl : Nat) (ops : List Instr), tracker s = none →
    ∃ t t', runOps ops s = .next t ∧ runOps ops { s with repeatDeadline := dl } = .next t' ∧
      t'.events = t.events ∧ t'.returns = t.returns ∧ tracker t' = tracker t

/-- What the spec derives in R121: the guarded assembler and the source's own unguarded one cannot be told apart. Over any run the machine's
state is the unguarded run's with every count of 33 or more read as 32. -/
def Obligations.UnguardedAssemblerAgrees : Prop :=
  ∀ (ops : List Instr) (s : State), ∃ c u,
    runUnguarded ops { count := s.bitsReceived.val, st := s } = some { count := c, st := u } ∧
    runOps ops s = .next { u with bitsReceived := clampCount c }

/-- What the spec derives in R164: while the monitor keeps its periods and nothing refreshes the deadline, a button refreshed at time `s.now` is
reported released by `120 ms` plus the longer period. The periods are R9's open parameters (log 5); the timer's
readings are exact here, so the rule's allowance for its resolution does not appear. -/
def Obligations.ReleaseWithinLatencyBound : Prop :=
  ∀ (activeMs idleMs last : Nat) (ops : List Instr) (s t : State) (c : CommandId),
    s.phase = .attached → tracker s = some c → s.repeatDeadline = s.now + 120 → last ≤ s.now →
    awaitsRelease activeMs idleMs ops s last → runOps ops s = .next t →
    s.now + 120 + max activeMs idleMs < t.now →
      .buttonReleased c ∈ t.events.drop s.events.length ∧ tracker t = none
end

