-- ==== Sys2Proof/Laws/Decode.lean ====
section
/-! SUPPORT. Cutting a word into its fields and storing it in bytes lose nothing (R71). -/

namespace Sys2Proof

theorem append_toNat {n m : Nat} (x : BitVec n) (y : BitVec m) : (x ++ y).toNat = x.toNat * 2 ^ m + y.toNat := by
  rw [BitVec.toNat_append, ← Nat.shiftLeft_add_eq_or_of_lt y.isLt, Nat.shiftLeft_eq]

/-- A word's value from its fields (R71). -/
theorem joinFields_toNat (o : OpAB) :
    (joinFields o).toNat = o.opcode.toNat * 2 ^ 56 + o.a.toNat * 2 ^ 28 + o.b.toNat := by
  have h : (joinFields o).toNat = (o.opcode ++ o.a).toNat * 2 ^ 28 + o.b.toNat := append_toNat (o.opcode ++ o.a) o.b
  rw [h, append_toNat]
  omega

/-- The fields of a word's value (R71). -/
theorem cutFields_toNat (w : Word) :
    (cutFields w).opcode.toNat = w.toNat / 2 ^ 56 ∧ (cutFields w).a.toNat = w.toNat / 2 ^ 28 % 2 ^ 28 ∧
    (cutFields w).b.toNat = w.toNat % 2 ^ 28 := by
  simp only [cutFields, BitVec.extractLsb'_toNat, Nat.shiftRight_eq_div_pow]
  refine ⟨Nat.mod_eq_of_lt (Nat.div_lt_of_lt_mul ?_), trivial, by omega⟩
  have h := w.isLt
  omega

@[simp] theorem cutFields_joinFields (o : OpAB) : cutFields (joinFields o) = o := by
  have h := cutFields_toNat (joinFields o)
  rw [joinFields_toNat] at h
  have h1 := o.opcode.isLt
  have h2 := o.a.isLt
  have h3 := o.b.isLt
  cases o with
  | mk op a b =>
    refine OpAB.mk.injEq _ _ _ _ _ _ ▸ ⟨?_, ?_, ?_⟩ <;> apply BitVec.eq_of_toNat_eq
    · exact h.1.trans (by simp only at *; omega)
    · exact h.2.1.trans (by simp only at *; omega)
    · exact h.2.2.trans (by simp only at *; omega)

@[simp] theorem joinFields_cutFields (w : Word) : joinFields (cutFields w) = w := by
  apply BitVec.eq_of_toNat_eq
  obtain ⟨h1, h2, h3⟩ := cutFields_toNat w
  rw [joinFields_toNat, h1, h2, h3]
  omega

theorem joinFields_injective {o q : OpAB} (h : joinFields o = joinFields q) : o = q := by
  rw [← cutFields_joinFields o, h, cutFields_joinFields]

/-- A mask acts field by field. -/
theorem joinFields_and (o q : OpAB) : joinFields o &&& joinFields q =
    joinFields { opcode := o.opcode &&& q.opcode, a := o.a &&& q.a, b := o.b &&& q.b } := by
  simp only [joinFields]
  rw [BitVec.and_append, BitVec.and_append]

/-- The value of eight stored bytes, most significant first (R71). -/
theorem wordOfBytes_toNat (b7 b6 b5 b4 b3 b2 b1 b0 : Byte) :
    (wordOfBytes b7 b6 b5 b4 b3 b2 b1 b0).toNat =
      ((((((b7.toNat * 256 + b6.toNat) * 256 + b5.toNat) * 256 + b4.toNat) * 256 + b3.toNat) * 256 + b2.toNat) * 256 +
        b1.toNat) * 256 + b0.toNat := by
  have h : (wordOfBytes b7 b6 b5 b4 b3 b2 b1 b0).toNat =
      (b7 ++ b6 ++ b5 ++ b4 ++ b3 ++ b2 ++ b1).toNat * 2 ^ 8 + b0.toNat :=
    append_toNat (b7 ++ b6 ++ b5 ++ b4 ++ b3 ++ b2 ++ b1) b0
  rw [h, append_toNat, append_toNat, append_toNat, append_toNat, append_toNat, append_toNat]
  rfl

/-- Protocol codes (R23). -/
@[simp] theorem ofCode_code (p : Protocol) : Protocol.ofCode p.code = p := by
  cases p <;> rfl

@[simp] theorem code_ofCode (c : BitVec 1) : (Protocol.ofCode c).code = c := by
  revert c
  decide

/-- An operation without operands (R72). -/
theorem bare_eq_ok_iff {o : OpAB} {i j : Instr} : bare o i = .ok j ↔ o.a = 0 ∧ o.b = 0 ∧ i = j := by
  unfold bare
  by_cases ha : o.a = 0#28 <;> by_cases hb : o.b = 0#28 <;> simp [ha, hb]

/-- An operation with `b` as its operand (R72). -/
theorem withB_eq_ok_iff {o : OpAB} {f : Operand → Instr} {j : Instr} : withB o f = .ok j ↔ o.a = 0 ∧ f o.b = j := by
  unfold withB
  by_cases ha : o.a = 0#28 <;> simp [ha]

/-- `ATTACH` (R72). -/
theorem attachOf_eq_ok_iff {o : OpAB} {j : Instr} : attachOf o = .ok j ↔
    o.a = 0 ∧ o.b.toNat ≤ 1 ∧ .attach (Protocol.ofCode (o.b.extractLsb' 0 1)) = j := by
  unfold attachOf
  by_cases ha : o.a = 0#28 <;> by_cases hb : o.b.toNat ≤ 1 <;> simp [ha, hb]

end Sys2Proof
end

