-- ==== Sys2Proof/Laws/Operands.lean ====
section
/-! SUPPORT. The constants as numerals, and the spec lemma of each operand function. -/

namespace Sys2Proof.Machine

@[simp] theorem tBit1_eq : Config.tBit1 = 1600 := rfl
@[simp] theorem tLong_eq : Config.tLong = 2700 := rfl
@[simp] theorem tLeader_eq : Config.tLeader = 12500 := rfl
@[simp] theorem repeatTimeoutMs_eq : Config.repeatTimeoutMs = 120 := rfl
@[simp] theorem frameBits_eq : Config.frameBits = 32 := rfl
@[simp] theorem addrBits_eq : Config.addrBits = 16 := rfl
@[simp] theorem quirkWindow_eq : Config.quirkWindow = 8 := rfl
@[simp] theorem quirkResume_eq : Config.quirkResume = 9 := rfl

/-- The order of the constants that R8 says the rules assume. -/
theorem constants_ordered :
    0 < Config.tBit1 ∧ Config.tBit1 < Config.tLong ∧ Config.tLong < Config.tLeader ∧
    Config.tLeader ≤ Config.tLeaderHi ∧ Config.quirkWindow < Config.quirkResume.val ∧
    Config.quirkResume.val ≤ Config.addrBits ∧ Config.addrBits < Config.frameBits := by decide

/-- The sum of a pair is exact (R11). -/
theorem pairDuration_toNat (m s : Duration) : (pairDuration m s).toNat = m.toNat + s.toNat := by
  have hm := m.isLt
  have hs := s.isLt
  simp only [pairDuration, BitVec.toNat_add, BitVec.toNat_setWidth]
  omega

/-- A captured length is the measured one, or the largest value (R73). -/
theorem capturedDuration_toNat (n : Nat) : (capturedDuration n).toNat = min n (2 ^ 28 - 1) := by
  unfold capturedDuration
  split <;> simp <;> omega

/-- The shift of one bit is the source's `w << 1 | b` (R12). -/
theorem shiftIn_eq_sourceShift (w : Half) (b : Bool) : shiftIn w b = sourceShift w b := by
  apply BitVec.eq_of_getLsbD_eq
  intro i hi
  cases i with
  | zero => simp [shiftIn, sourceShift]
  | succ n => simp [shiftIn, sourceShift, hi, BitVec.getLsbD_eq_getElem (show n < 16 by omega)]

/-- The shift of one bit as arithmetic (R12). -/
theorem shiftIn_toNat (w : Half) (b : Bool) : (shiftIn w b).toNat = (2 * w.toNat + b.toNat) % 2 ^ 16 := by
  have hw := w.isLt
  have hb : b.toNat ≤ 1 := Bool.toNat_le b
  simp only [shiftIn, BitVec.toNat_concat, BitVec.extractLsb'_toNat, Nat.shiftRight_zero]
  omega

/-- The command id is the upper byte (R142). -/
theorem commandIdOf_eq_shift (c : Half) : commandIdOf c = (c >>> 8).setWidth 8 := by
  apply BitVec.eq_of_getElem_eq
  intro i hi
  simp [commandIdOf, BitVec.getLsbD]

theorem commandIdOf_toNat (c : Half) : (commandIdOf c).toNat = c.toNat / 256 := by
  have hc := c.isLt
  simp only [commandIdOf, BitVec.extractLsb'_toNat, Nat.shiftRight_eq_div_pow]
  omega

theorem nextPos_val_of_lt {p : FramePos} (h : p.val < 32) : (nextPos p).val = p.val + 1 := by
  simp [nextPos, h]

theorem nextPos_of_full {p : FramePos} (h : p.val = 32) : nextPos p = p := by
  simp [nextPos, h]

/-- Milliseconds do not wrap (R13, R193; assumption log 3). -/
@[simp] theorem deadlineAt_eq (now : Nat) : deadlineAt now = now + 120 := rfl
@[simp] theorem laterBy_eq (now : Nat) (t : Operand) : laterBy now t = now + t.toNat := rfl

end Sys2Proof.Machine
end

