-- ==== Sys2Proof/Laws/State.lean ====
section
/-! SUPPORT. What each update of the state does to each field; a record an update does not touch has one lemma for the
whole of it. All are true by rfl. -/

namespace Sys2Proof.Machine

variable (s : State)

@[simp] theorem emit_toReceiverState (e : Event) : (emit e s).toReceiverState = s.toReceiverState := rfl
@[simp] theorem emit_toButtonTrackerState (e : Event) : (emit e s).toButtonTrackerState = s.toButtonTrackerState := rfl
@[simp] theorem emit_now (e : Event) : (emit e s).now = s.now := rfl
@[simp] theorem emit_events (e : Event) : (emit e s).events = s.events ++ [e] := rfl
@[simp] theorem emit_returns (e : Event) : (emit e s).returns = s.returns := rfl
@[simp] theorem emit_listeners (e : Event) : (emit e s).listeners = s.listeners := rfl
@[simp] theorem emit_stimulus (e : Event) : (emit e s).stimulus = s.stimulus := rfl
@[simp] theorem emit_phase (e : Event) : (emit e s).phase = s.phase := rfl

@[simp] theorem respond_toReceiverState (r : Response) : (respond r s).toReceiverState = s.toReceiverState := rfl
@[simp] theorem respond_toButtonTrackerState (r : Response) : (respond r s).toButtonTrackerState = s.toButtonTrackerState := rfl
@[simp] theorem respond_now (r : Response) : (respond r s).now = s.now := rfl
@[simp] theorem respond_events (r : Response) : (respond r s).events = s.events := rfl
@[simp] theorem respond_returns (r : Response) : (respond r s).returns = s.returns ++ [r] := rfl
@[simp] theorem respond_listeners (r : Response) : (respond r s).listeners = s.listeners := rfl
@[simp] theorem respond_stimulus (r : Response) : (respond r s).stimulus = s.stimulus := rfl
@[simp] theorem respond_phase (r : Response) : (respond r s).phase = s.phase := rfl

@[simp] theorem placeWord_toReceiverState (w : Word) : (placeWord w s).toReceiverState = s.toReceiverState := rfl
@[simp] theorem placeWord_toButtonTrackerState (w : Word) : (placeWord w s).toButtonTrackerState = s.toButtonTrackerState := rfl
@[simp] theorem placeWord_now (w : Word) : (placeWord w s).now = s.now := rfl
@[simp] theorem placeWord_events (w : Word) : (placeWord w s).events = s.events := rfl
@[simp] theorem placeWord_returns (w : Word) : (placeWord w s).returns = s.returns := rfl
@[simp] theorem placeWord_listeners (w : Word) : (placeWord w s).listeners = s.listeners := rfl
@[simp] theorem placeWord_stimulus (w : Word) : (placeWord w s).stimulus = w :: s.stimulus := rfl
@[simp] theorem placeWord_phase (w : Word) : (placeWord w s).phase = s.phase := rfl

@[simp] theorem loadStimulus_toReceiverState (ws : List Word) : (loadStimulus ws s).toReceiverState = s.toReceiverState := rfl
@[simp] theorem loadStimulus_toButtonTrackerState (ws : List Word) : (loadStimulus ws s).toButtonTrackerState = s.toButtonTrackerState := rfl
@[simp] theorem loadStimulus_now (ws : List Word) : (loadStimulus ws s).now = s.now := rfl
@[simp] theorem loadStimulus_events (ws : List Word) : (loadStimulus ws s).events = s.events := rfl
@[simp] theorem loadStimulus_returns (ws : List Word) : (loadStimulus ws s).returns = s.returns := rfl
@[simp] theorem loadStimulus_listeners (ws : List Word) : (loadStimulus ws s).listeners = s.listeners := rfl
@[simp] theorem loadStimulus_stimulus (ws : List Word) : (loadStimulus ws s).stimulus = s.stimulus ++ ws := rfl
@[simp] theorem loadStimulus_phase (ws : List Word) : (loadStimulus ws s).phase = s.phase := rfl

@[simp] theorem subscribe_toReceiverState (q : Subscription) : (subscribe q s).toReceiverState = s.toReceiverState := rfl
@[simp] theorem subscribe_toButtonTrackerState (q : Subscription) : (subscribe q s).toButtonTrackerState = s.toButtonTrackerState := rfl
@[simp] theorem subscribe_now (q : Subscription) : (subscribe q s).now = s.now := rfl
@[simp] theorem subscribe_events (q : Subscription) : (subscribe q s).events = s.events := rfl
@[simp] theorem subscribe_returns (q : Subscription) : (subscribe q s).returns = s.returns := rfl
@[simp] theorem subscribe_listeners (q : Subscription) : (subscribe q s).listeners = s.listeners ++ [{ sub := q, since := s.events.length }] := rfl
@[simp] theorem subscribe_stimulus (q : Subscription) : (subscribe q s).stimulus = s.stimulus := rfl
@[simp] theorem subscribe_phase (q : Subscription) : (subscribe q s).phase = s.phase := rfl

@[simp] theorem markDatagram_protocol : (markDatagram s).protocol = s.protocol := rfl
@[simp] theorem markDatagram_bitsReceived : (markDatagram s).bitsReceived = s.bitsReceived := rfl
@[simp] theorem markDatagram_highWord : (markDatagram s).highWord = s.highWord := rfl
@[simp] theorem markDatagram_lowWord : (markDatagram s).lowWord = s.lowWord := rfl
@[simp] theorem markDatagram_addressField : (markDatagram s).addressField = s.addressField := rfl
@[simp] theorem markDatagram_commandField : (markDatagram s).commandField = s.commandField := rfl
@[simp] theorem markDatagram_hasUnreadDatagram : (markDatagram s).hasUnreadDatagram = true := rfl
@[simp] theorem markDatagram_datagramSeen : (markDatagram s).datagramSeen = true := rfl
@[simp] theorem markDatagram_toButtonTrackerState : (markDatagram s).toButtonTrackerState = s.toButtonTrackerState := rfl
@[simp] theorem markDatagram_toEnvironment : (markDatagram s).toEnvironment = s.toEnvironment := rfl
@[simp] theorem markDatagram_phase : (markDatagram s).phase = s.phase := rfl

@[simp] theorem clearUnread_protocol : (clearUnread s).protocol = s.protocol := rfl
@[simp] theorem clearUnread_bitsReceived : (clearUnread s).bitsReceived = s.bitsReceived := rfl
@[simp] theorem clearUnread_highWord : (clearUnread s).highWord = s.highWord := rfl
@[simp] theorem clearUnread_lowWord : (clearUnread s).lowWord = s.lowWord := rfl
@[simp] theorem clearUnread_addressField : (clearUnread s).addressField = s.addressField := rfl
@[simp] theorem clearUnread_commandField : (clearUnread s).commandField = s.commandField := rfl
@[simp] theorem clearUnread_hasUnreadDatagram : (clearUnread s).hasUnreadDatagram = false := rfl
@[simp] theorem clearUnread_datagramSeen : (clearUnread s).datagramSeen = s.datagramSeen := rfl
@[simp] theorem clearUnread_toButtonTrackerState : (clearUnread s).toButtonTrackerState = s.toButtonTrackerState := rfl
@[simp] theorem clearUnread_toEnvironment : (clearUnread s).toEnvironment = s.toEnvironment := rfl
@[simp] theorem clearUnread_phase : (clearUnread s).phase = s.phase := rfl

@[simp] theorem setActive_toReceiverState (c : CommandId) : (setActive c s).toReceiverState = s.toReceiverState := rfl
@[simp] theorem setActive_activeValid (c : CommandId) : (setActive c s).activeValid = true := rfl
@[simp] theorem setActive_activeCommand (c : CommandId) : (setActive c s).activeCommand = c := rfl
@[simp] theorem setActive_repeatDeadline (c : CommandId) : (setActive c s).repeatDeadline = s.repeatDeadline := rfl
@[simp] theorem setActive_toEnvironment (c : CommandId) : (setActive c s).toEnvironment = s.toEnvironment := rfl
@[simp] theorem setActive_phase (c : CommandId) : (setActive c s).phase = s.phase := rfl

@[simp] theorem clearActive_toReceiverState : (clearActive s).toReceiverState = s.toReceiverState := rfl
@[simp] theorem clearActive_activeValid : (clearActive s).activeValid = false := rfl
@[simp] theorem clearActive_activeCommand : (clearActive s).activeCommand = 0 := rfl
@[simp] theorem clearActive_repeatDeadline : (clearActive s).repeatDeadline = s.repeatDeadline := rfl
@[simp] theorem clearActive_toEnvironment : (clearActive s).toEnvironment = s.toEnvironment := rfl
@[simp] theorem clearActive_phase : (clearActive s).phase = s.phase := rfl

@[simp] theorem resync_protocol : (resync s).protocol = s.protocol := rfl
@[simp] theorem resync_bitsReceived : (resync s).bitsReceived = 0 := rfl
@[simp] theorem resync_highWord : (resync s).highWord = s.highWord := rfl
@[simp] theorem resync_lowWord : (resync s).lowWord = s.lowWord := rfl
@[simp] theorem resync_addressField : (resync s).addressField = s.addressField := rfl
@[simp] theorem resync_commandField : (resync s).commandField = s.commandField := rfl
@[simp] theorem resync_hasUnreadDatagram : (resync s).hasUnreadDatagram = s.hasUnreadDatagram := rfl
@[simp] theorem resync_datagramSeen : (resync s).datagramSeen = s.datagramSeen := rfl
@[simp] theorem resync_toButtonTrackerState : (resync s).toButtonTrackerState = s.toButtonTrackerState := rfl
@[simp] theorem resync_toEnvironment : (resync s).toEnvironment = s.toEnvironment := rfl
@[simp] theorem resync_phase : (resync s).phase = s.phase := rfl

@[simp] theorem placeHigh_protocol (n : FramePos) (b : Bool) : (placeHigh n b s).protocol = s.protocol := rfl
@[simp] theorem placeHigh_bitsReceived (n : FramePos) (b : Bool) : (placeHigh n b s).bitsReceived = n := rfl
@[simp] theorem placeHigh_highWord (n : FramePos) (b : Bool) : (placeHigh n b s).highWord = shiftIn s.highWord b := rfl
@[simp] theorem placeHigh_lowWord (n : FramePos) (b : Bool) : (placeHigh n b s).lowWord = s.lowWord := rfl
@[simp] theorem placeHigh_addressField (n : FramePos) (b : Bool) : (placeHigh n b s).addressField = s.addressField := rfl
@[simp] theorem placeHigh_commandField (n : FramePos) (b : Bool) : (placeHigh n b s).commandField = s.commandField := rfl
@[simp] theorem placeHigh_hasUnreadDatagram (n : FramePos) (b : Bool) : (placeHigh n b s).hasUnreadDatagram = s.hasUnreadDatagram := rfl
@[simp] theorem placeHigh_datagramSeen (n : FramePos) (b : Bool) : (placeHigh n b s).datagramSeen = s.datagramSeen := rfl
@[simp] theorem placeHigh_toButtonTrackerState (n : FramePos) (b : Bool) : (placeHigh n b s).toButtonTrackerState = s.toButtonTrackerState := rfl
@[simp] theorem placeHigh_toEnvironment (n : FramePos) (b : Bool) : (placeHigh n b s).toEnvironment = s.toEnvironment := rfl
@[simp] theorem placeHigh_phase (n : FramePos) (b : Bool) : (placeHigh n b s).phase = s.phase := rfl

@[simp] theorem placeLow_protocol (n : FramePos) (b : Bool) : (placeLow n b s).protocol = s.protocol := rfl
@[simp] theorem placeLow_bitsReceived (n : FramePos) (b : Bool) : (placeLow n b s).bitsReceived = n := rfl
@[simp] theorem placeLow_highWord (n : FramePos) (b : Bool) : (placeLow n b s).highWord = s.highWord := rfl
@[simp] theorem placeLow_lowWord (n : FramePos) (b : Bool) : (placeLow n b s).lowWord = shiftIn s.lowWord b := rfl
@[simp] theorem placeLow_addressField (n : FramePos) (b : Bool) : (placeLow n b s).addressField = s.addressField := rfl
@[simp] theorem placeLow_commandField (n : FramePos) (b : Bool) : (placeLow n b s).commandField = s.commandField := rfl
@[simp] theorem placeLow_hasUnreadDatagram (n : FramePos) (b : Bool) : (placeLow n b s).hasUnreadDatagram = s.hasUnreadDatagram := rfl
@[simp] theorem placeLow_datagramSeen (n : FramePos) (b : Bool) : (placeLow n b s).datagramSeen = s.datagramSeen := rfl
@[simp] theorem placeLow_toButtonTrackerState (n : FramePos) (b : Bool) : (placeLow n b s).toButtonTrackerState = s.toButtonTrackerState := rfl
@[simp] theorem placeLow_toEnvironment (n : FramePos) (b : Bool) : (placeLow n b s).toEnvironment = s.toEnvironment := rfl
@[simp] theorem placeLow_phase (n : FramePos) (b : Bool) : (placeLow n b s).phase = s.phase := rfl

@[simp] theorem quirkRecover_protocol : (quirkRecover s).protocol = s.protocol := rfl
@[simp] theorem quirkRecover_bitsReceived : (quirkRecover s).bitsReceived = Config.quirkResume := rfl
@[simp] theorem quirkRecover_highWord : (quirkRecover s).highWord = 1 := rfl
@[simp] theorem quirkRecover_lowWord : (quirkRecover s).lowWord = s.lowWord := rfl
@[simp] theorem quirkRecover_addressField : (quirkRecover s).addressField = s.addressField := rfl
@[simp] theorem quirkRecover_commandField : (quirkRecover s).commandField = s.commandField := rfl
@[simp] theorem quirkRecover_hasUnreadDatagram : (quirkRecover s).hasUnreadDatagram = s.hasUnreadDatagram := rfl
@[simp] theorem quirkRecover_datagramSeen : (quirkRecover s).datagramSeen = s.datagramSeen := rfl
@[simp] theorem quirkRecover_toButtonTrackerState : (quirkRecover s).toButtonTrackerState = s.toButtonTrackerState := rfl
@[simp] theorem quirkRecover_toEnvironment : (quirkRecover s).toEnvironment = s.toEnvironment := rfl
@[simp] theorem quirkRecover_phase : (quirkRecover s).phase = s.phase := rfl

@[simp] theorem publish_protocol : (publish s).protocol = s.protocol := rfl
@[simp] theorem publish_bitsReceived : (publish s).bitsReceived = s.bitsReceived := rfl
@[simp] theorem publish_highWord : (publish s).highWord = s.highWord := rfl
@[simp] theorem publish_lowWord : (publish s).lowWord = s.lowWord := rfl
@[simp] theorem publish_addressField : (publish s).addressField = s.highWord := rfl
@[simp] theorem publish_commandField : (publish s).commandField = s.lowWord := rfl
@[simp] theorem publish_hasUnreadDatagram : (publish s).hasUnreadDatagram = s.hasUnreadDatagram := rfl
@[simp] theorem publish_datagramSeen : (publish s).datagramSeen = s.datagramSeen := rfl
@[simp] theorem publish_toButtonTrackerState : (publish s).toButtonTrackerState = s.toButtonTrackerState := rfl
@[simp] theorem publish_toEnvironment : (publish s).toEnvironment = s.toEnvironment := rfl
@[simp] theorem publish_phase : (publish s).phase = s.phase := rfl

@[simp] theorem refreshDeadline_toReceiverState : (refreshDeadline s).toReceiverState = s.toReceiverState := rfl
@[simp] theorem refreshDeadline_activeValid : (refreshDeadline s).activeValid = s.activeValid := rfl
@[simp] theorem refreshDeadline_activeCommand : (refreshDeadline s).activeCommand = s.activeCommand := rfl
@[simp] theorem refreshDeadline_repeatDeadline : (refreshDeadline s).repeatDeadline = deadlineAt s.now := rfl
@[simp] theorem refreshDeadline_toEnvironment : (refreshDeadline s).toEnvironment = s.toEnvironment := rfl
@[simp] theorem refreshDeadline_phase : (refreshDeadline s).phase = s.phase := rfl

@[simp] theorem detach_toReceiverState : (detach s).toReceiverState = s.toReceiverState := rfl
@[simp] theorem detach_toButtonTrackerState : (detach s).toButtonTrackerState = s.toButtonTrackerState := rfl
@[simp] theorem detach_toEnvironment : (detach s).toEnvironment = s.toEnvironment := rfl
@[simp] theorem detach_phase : (detach s).phase = .detached := rfl

/-- Two states are equal when their records and the rest are. -/
theorem State.ext_parts {s t : State} (hr : s.toReceiverState = t.toReceiverState)
    (hk : s.toButtonTrackerState = t.toButtonTrackerState) (he : s.toEnvironment = t.toEnvironment)
    (hp : s.phase = t.phase) : s = t := by
  cases s
  cases t
  simp_all

end Sys2Proof.Machine
end

