-- ==== Sys2Proof/Laws/Pulse.lean ====
section
/-! SUPPORT. What `PULSE` can do, said once: the classifier by the size of the sum, the assembler by the count, and
the inversion lemma over both. -/

namespace Sys2Proof.Machine

variable {s : State} {m sp : Duration} {b : Bool}

/-- The pair's data bit, by its exact sum (R76, R103). -/
theorem dataBit_eq_none_iff : dataBit (m, sp) = none ↔ 2700 ≤ m.toNat + sp.toNat := by
  simp only [dataBit]
  split
  · simp; omega
  · split
    · simp; omega
    · simp; omega

theorem classify_dataBit (h : dataBit (m, sp) = some b) (s : State) :
    classify (pairDuration m sp) s = (.bit b, s) := by
  unfold dataBit at h
  simp only [classify, pairDuration_toNat, tBit1_eq, tLong_eq, tLeader_eq]
  split at h
  · simp_all
  · split at h
    · simp_all
    · simp at h

theorem classify_repeat (h : 2700 ≤ m.toNat + sp.toNat) (h' : m.toNat + sp.toNat < 12500) (s : State) :
    classify (pairDuration m sp) s = (.repeatCode, resync s) := by
  simp only [classify, pairDuration_toNat, tBit1_eq, tLong_eq, tLeader_eq]
  rw [if_neg (by omega), if_neg (by omega), if_pos h']

theorem classify_boundary (h : 12500 ≤ m.toNat + sp.toNat) (s : State) :
    classify (pairDuration m sp) s = (.frameBoundary, resync s) := by
  simp only [classify, pairDuration_toNat, tBit1_eq, tLong_eq, tLeader_eq]
  rw [if_neg (by omega), if_neg (by omega), if_neg (by omega)]

/-- R121. -/
theorem appendBit_full (h : s.bitsReceived.val = 32) : appendBit b s = (.incomplete, s) := by
  simp [appendBit, h]

/-- R123. -/
theorem appendBit_quirk (h : s.bitsReceived.val < 8) (hp : s.protocol = .zeroAddressVariant) :
    appendBit true s = (.incomplete, quirkRecover s) := by
  have hn := nextPos_val_of_lt (p := s.bitsReceived) (by omega)
  have h1 : s.bitsReceived.val ≠ 32 := by omega
  have h2 : quirkFires (nextPos s.bitsReceived) true s = true := by simp [quirkFires, hp, hn]; omega
  simp [appendBit, h1, placeBit, h2, finishBit]

/-- Positions 1 to 16 without quirk recovery (R122). -/
theorem appendBit_high (h : s.bitsReceived.val < 16)
    (hq : ¬(s.bitsReceived.val < 8 ∧ s.protocol = .zeroAddressVariant ∧ b = true)) :
    appendBit b s = (.incomplete, placeHigh (nextPos s.bitsReceived) b s) := by
  have hn := nextPos_val_of_lt (p := s.bitsReceived) (by omega)
  have h1 : s.bitsReceived.val ≠ 32 := by omega
  have h2 : quirkFires (nextPos s.bitsReceived) b s = false := by
    simp only [quirkFires, hn, quirkWindow_eq, Bool.and_eq_false_iff, decide_eq_false_iff_not, beq_eq_false_iff_ne]
    by_cases hlt : s.bitsReceived.val < 8
    · by_cases hp : s.protocol = .zeroAddressVariant
      · right; right; simpa [hlt, hp] using hq
      · exact .inr (.inl hp)
    · left; omega
  have h3 : (nextPos s.bitsReceived).val ≤ 16 := by omega
  have h4 : (nextPos s.bitsReceived).val ≠ 32 := by omega
  simp [appendBit, h1, placeBit, h2, h3, h4, finishBit]

/-- Quirk recovery is over from position 9 on (R125). -/
theorem not_quirkFires (h : 8 ≤ s.bitsReceived.val) (h' : s.bitsReceived.val < 32) :
    quirkFires (nextPos s.bitsReceived) b s = false := by
  have hn := nextPos_val_of_lt h'
  simp [quirkFires, hn]
  omega

/-- Positions 17 to 31 (R122). -/
theorem appendBit_low (h : 16 ≤ s.bitsReceived.val) (h' : s.bitsReceived.val < 31) :
    appendBit b s = (.incomplete, placeLow (nextPos s.bitsReceived) b s) := by
  have hn := nextPos_val_of_lt (p := s.bitsReceived) (by omega)
  have h1 : s.bitsReceived.val ≠ 32 := by omega
  have h2 : quirkFires (nextPos s.bitsReceived) b s = false := not_quirkFires (by omega) (by omega)
  have h3 : ¬(nextPos s.bitsReceived).val ≤ 16 := by omega
  have h4 : (nextPos s.bitsReceived).val ≠ 32 := by omega
  simp [appendBit, h1, placeBit, h2, h3, h4, finishBit]

/-- The 32nd bit (R122, R124). -/
theorem appendBit_last (h : s.bitsReceived.val = 31) :
    appendBit b s = (.complete, publish (placeLow 32 b s)) := by
  have hn := nextPos_val_of_lt (p := s.bitsReceived) (by omega)
  have h0 : nextPos s.bitsReceived = 32 := Fin.ext (by rw [hn, h]; rfl)
  have h1 : s.bitsReceived.val ≠ 32 := by omega
  have h2 : quirkFires (nextPos s.bitsReceived) b s = false := not_quirkFires (by omega) (by omega)
  rw [h0] at h2
  simp [appendBit, h1, placeBit, h0, h2, finishBit]

/-- What one data bit can do (R121 to R124). -/
theorem appendBit_cases (b : Bool) (s : State) :
    (s.bitsReceived.val = 32 ∧ appendBit b s = (.incomplete, s)) ∨
    (s.bitsReceived.val < 8 ∧ s.protocol = .zeroAddressVariant ∧ b = true ∧
      appendBit b s = (.incomplete, quirkRecover s)) ∨
    (s.bitsReceived.val < 16 ∧ ¬(s.bitsReceived.val < 8 ∧ s.protocol = .zeroAddressVariant ∧ b = true) ∧
      appendBit b s = (.incomplete, placeHigh (nextPos s.bitsReceived) b s)) ∨
    (16 ≤ s.bitsReceived.val ∧ s.bitsReceived.val < 31 ∧
      appendBit b s = (.incomplete, placeLow (nextPos s.bitsReceived) b s)) ∨
    (s.bitsReceived.val = 31 ∧ appendBit b s = (.complete, publish (placeLow 32 b s))) := by
  have hlt := s.bitsReceived.isLt
  by_cases hq : s.bitsReceived.val < 8 ∧ s.protocol = .zeroAddressVariant ∧ b = true
  · obtain ⟨h8, hp, rfl⟩ := hq
    exact .inr (.inl ⟨h8, hp, rfl, appendBit_quirk h8 hp⟩)
  · by_cases h16 : s.bitsReceived.val < 16
    · exact .inr (.inr (.inl ⟨h16, hq, appendBit_high h16 hq⟩))
    · by_cases h31 : s.bitsReceived.val < 31
      · exact .inr (.inr (.inr (.inl ⟨by omega, h31, appendBit_low (by omega) h31⟩)))
      · by_cases h32 : s.bitsReceived.val = 32
        · exact .inl ⟨h32, appendBit_full h32⟩
        · exact .inr (.inr (.inr (.inr ⟨by omega, appendBit_last (by omega)⟩)))

@[simp] theorem whenAttached_of_attached {f : State → State} (h : s.phase = .attached) : whenAttached f s = f s := by
  simp [whenAttached, h]

@[simp] theorem whenAttached_of_ne {f : State → State} (h : s.phase ≠ .attached) : whenAttached f s = s := by
  simp [whenAttached, h]

/-- A data bit goes to the assembler, and the completion handler runs if it completes (R101). -/
theorem exec_pulse_of_dataBit (ha : s.phase = .attached) (hd : dataBit (m, sp) = some b) :
    exec (.pulse m sp) s = .next (afterBit (appendBit b s)).2 := by
  simp [exec, execPulse, ha, pulseChain, classify_dataBit hd, afterSymbol]

/-- What the chain of `PULSE` can do, with the status it reports (R101). -/
theorem pulseChain_cases (m sp : Duration) (s : State) :
    (12500 ≤ m.toNat + sp.toNat ∧ pulseChain m sp s = (.incomplete, resync s)) ∨
    (2700 ≤ m.toNat + sp.toNat ∧ m.toNat + sp.toNat < 12500 ∧
      pulseChain m sp s = (.repeated, refreshDeadline (resync s))) ∨
    (∃ b, dataBit (m, sp) = some b ∧ appendBit b s = (.incomplete, (appendBit b s).2) ∧
      pulseChain m sp s = (.incomplete, (appendBit b s).2)) ∨
    (∃ b, dataBit (m, sp) = some b ∧ s.bitsReceived.val = 31 ∧
      pulseChain m sp s = (.complete, onComplete (publish (placeLow 32 b s)))) := by
  rcases hd : dataBit (m, sp) with _ | b
  · have h := dataBit_eq_none_iff.mp hd
    by_cases h' : m.toNat + sp.toNat < 12500
    · exact .inr (.inl ⟨h, h', by simp [pulseChain, classify_repeat h h', afterSymbol, onRepeat]⟩)
    · exact .inl ⟨by omega, by simp [pulseChain, classify_boundary (Nat.le_of_not_lt h'), afterSymbol]⟩
  · right; right
    have hc : pulseChain m sp s = afterBit (appendBit b s) := by simp [pulseChain, classify_dataBit hd, afterSymbol]
    rcases appendBit_cases b s with ⟨_, h⟩ | ⟨_, _, _, h⟩ | ⟨_, _, h⟩ | ⟨_, _, h⟩ | ⟨h31, h⟩
    · exact .inl ⟨b, rfl, by rw [h], by rw [hc, h]; rfl⟩
    · exact .inl ⟨b, rfl, by rw [h], by rw [hc, h]; rfl⟩
    · exact .inl ⟨b, rfl, by rw [h], by rw [hc, h]; rfl⟩
    · exact .inl ⟨b, rfl, by rw [h], by rw [hc, h]; rfl⟩
    · exact .inr ⟨b, rfl, h31, by rw [hc, h]; rfl⟩

end Sys2Proof.Machine
end

