-- ==== Sys2Proof/Laws/Tracker.lean ====
section
/-! SUPPORT. What the completion handler and the monitor's check can do, said once. -/

namespace Sys2Proof.Machine

variable {s : State} {c : CommandId}

theorem tracker_eq_none_iff : tracker s = none ↔ s.activeValid = false := by
  unfold tracker
  split <;> simp_all

theorem tracker_eq_some_iff : tracker s = some c ↔ s.activeValid = true ∧ s.activeCommand = c := by
  unfold tracker
  split <;> simp_all

@[simp] theorem isActive_iff : isActive c s = true ↔ tracker s = some c := by
  simp [isActive, tracker_eq_some_iff]

/-- What becoming the active command does (R141): the tracker, and the events in order. -/
theorem pressCommand_spec (c : CommandId) (s : State) :
    tracker (pressCommand c s) = some c ∧
    (pressCommand c s).repeatDeadline = s.repeatDeadline ∧
    (pressCommand c s).toReceiverState = s.toReceiverState ∧
    (pressCommand c s).phase = s.phase ∧
    (∃ new, (pressCommand c s).toEnvironment = { s.toEnvironment with events := s.events ++ new } ∧
      .datagramReceived :: new = completionEvents (tracker s) c) := by
  by_cases h : isActive c s = true
  · have ht := isActive_iff.mp h
    simp only [pressCommand, h, if_true]
    exact ⟨ht, trivial, trivial, trivial, [], by simp, by simp [completionEvents, ht]⟩
  · have ht : tracker s ≠ some c := fun e => h (isActive_iff.mpr e)
    simp only [pressCommand, h]
    refine ⟨rfl, ?_, ?_, ?_, ?_⟩
    · cases hv : s.activeValid <;> simp [releasePrevious, hv]
    · cases hv : s.activeValid <;> simp [releasePrevious, hv]
    · cases hv : s.activeValid <;> simp [releasePrevious, hv]
    · cases hv : s.activeValid
      · exact ⟨[.buttonPressed c], by simp [releasePrevious, hv, emit, setActive], by
          simp [completionEvents, tracker_eq_none_iff.mpr hv]⟩
      · have hs : tracker s = some s.activeCommand := tracker_eq_some_iff.mpr ⟨hv, rfl⟩
        refine ⟨[.buttonReleased s.activeCommand, .buttonPressed c], by
          simp [releasePrevious, hv, emit, setActive], ?_⟩
        rw [hs] at ht ⊢
        have hne : s.activeCommand ≠ c := fun e => ht (by rw [e])
        simp [completionEvents, hne]

/-- What a completion does (R141): flags, tracker, deadline, events in order; nothing else. -/
theorem onComplete_spec (s : State) :
    tracker (onComplete s) = some (commandIdOf s.commandField) ∧
    (onComplete s).repeatDeadline = s.now + 120 ∧
    (onComplete s).toReceiverState = { s.toReceiverState with hasUnreadDatagram := true, datagramSeen := true } ∧
    (onComplete s).phase = s.phase ∧
    (onComplete s).toEnvironment =
      { s.toEnvironment with events := s.events ++ completionEvents (tracker s) (commandIdOf s.commandField) } := by
  have h := pressCommand_spec (commandIdOf s.commandField) (refreshDeadline (emit .datagramReceived (markDatagram s)))
  obtain ⟨h1, h2, h3, h4, new, h5, h6⟩ := h
  have ht : tracker (refreshDeadline (emit .datagramReceived (markDatagram s))) = tracker s := rfl
  rw [ht] at h6
  refine ⟨h1, by rw [onComplete, h2]; simp, by rw [onComplete, h3]; rfl, by rw [onComplete, h4]; simp, ?_⟩
  rw [onComplete, h5, ← h6]
  simp [refreshDeadline, emit, markDatagram]

theorem expired_iff : expired s = true ↔ s.activeValid = true ∧ s.repeatDeadline < s.now := by
  simp [expired]

/-- What the monitor's check can do (R160). -/
theorem monitorCheck_cases (s : State) :
    (s.activeValid = true ∧ s.repeatDeadline < s.now ∧
      monitorCheck s = clearActive (emit (.buttonReleased s.activeCommand) s)) ∨
    ((s.activeValid = false ∨ s.now ≤ s.repeatDeadline) ∧ monitorCheck s = s) := by
  by_cases h : expired s = true
  · exact .inl ⟨(expired_iff.mp h).1, (expired_iff.mp h).2, by simp [monitorCheck, h]⟩
  · refine .inr ⟨?_, by simp [monitorCheck, h]⟩
    cases hv : s.activeValid
    · exact .inl rfl
    · exact .inr (Nat.le_of_not_lt fun hl => h (expired_iff.mpr ⟨hv, hl⟩))

end Sys2Proof.Machine
end

