-- ==== Sys2Proof/Laws/Exec.lean ====
section
/-! SUPPORT. Each operation's meaning as an equation, and what a step can do. -/

namespace Sys2Proof.Machine

variable {s t : State}

theorem exec_attach (p : Protocol) (s : State) : exec (.attach p) s = .next (attach p s) := rfl
theorem exec_detach (s : State) : exec .detach s = .next (whenAttached detach s) := rfl
theorem exec_pulse (m sp : Duration) (s : State) :
    exec (.pulse m sp) s = .next (whenAttached (fun st => (pulseChain m sp st).2) s) := rfl
theorem exec_tick (s : State) : exec .tick s = .next (whenAttached monitorCheck s) := rfl
theorem exec_advance (d : Operand) (s : State) : exec (.advance d) s = .next { s with now := s.now + d.toNat } := rfl
theorem exec_rdcmd (s : State) : exec .rdcmd s = .next (respond (.lastCommand (lastButtonCommand s)) s) := rfl
theorem exec_rdhex (s : State) : exec .rdhex s = .next (respond (.hexString (lastDatagramHex s)) s) := rfl
theorem exec_takenew (s : State) :
    exec .takenew s = .next (respond (.newDatagram s.hasUnreadDatagram) (clearUnread s)) := rfl
theorem exec_cmdid (b : Operand) (s : State) :
    exec (.cmdid b) s = .next (respond (.commandOf (Config.buttonTable b)) s) := rfl

/-- What `ATTACH` can do (R191). -/
theorem attach_cases (p : Protocol) (s : State) :
    (s.phase = .unattached ∧ attach p s = { s with protocol := p, phase := .attached }) ∨
    (s.phase ≠ .unattached ∧ attach p s = s) := by
  by_cases h : s.phase = .unattached
  · exact .inl ⟨h, by simp [attach, h]⟩
  · exact .inr ⟨h, by simp [attach, h]⟩

/-- What a step that goes on can be: idle, or one operation on the state with its word taken off. -/
theorem step_cases (h : step s = .next t) :
    (s.stimulus = [] ∧ t = s) ∨
    ∃ w rest i, s.stimulus = w :: rest ∧ decodeWord w = .ok i ∧ exec i { s with stimulus := rest } = .next t := by
  unfold step fetch at h
  rcases hs : s.stimulus with _ | ⟨w, rest⟩
  · simp [hs] at h
    exact .inl ⟨rfl, h.symm⟩
  · right
    simp only [hs] at h
    rcases hd : decodeWord w with e | i
    · simp [hd] at h
    · simp only [hd] at h
      exact ⟨w, rest, i, rfl, hd, h⟩

@[simp] theorem runOps_nil (s : State) : runOps [] s = .next s := rfl

theorem runOps_cons {i : Instr} {is : List Instr} (h : exec i s = .next t) : runOps (i :: is) s = runOps is t := by
  simp [runOps, h]

/-- Runs compose (R57). -/
theorem runOps_append {is js : List Instr} (h : runOps is s = .next t) : runOps (is ++ js) s = runOps js t := by
  induction is generalizing s with
  | nil => simp at h; simp [h]
  | cons i is ih =>
    rw [List.cons_append]
    rcases he : exec i s with u | f | r
    · rw [runOps_cons he] at h ⊢
      exact ih h
    · simp [runOps, he] at h
    · simp [runOps, he] at h

/-- What every operation keeps, a run keeps. -/
theorem runOps_invariant {P : State → Prop} (hP : ∀ i s t, P s → exec i s = .next t → P t) {is : List Instr}
    (hs : P s) (h : runOps is s = .next t) : P t := by
  induction is generalizing s with
  | nil => simp at h; exact h ▸ hs
  | cons i is ih =>
    rcases he : exec i s with u | f | r
    · rw [runOps_cons he] at h
      exact ih (hP i s u hs he) h
    · simp [runOps, he] at h
    · simp [runOps, he] at h

@[simp] theorem noCompletion_nil (s : State) : noCompletion [] s := trivial

theorem noCompletion_cons {i : Instr} {is : List Instr} (h : exec i s = .next t) :
    noCompletion (i :: is) s ↔ (∀ m sp c, i = .pulse m sp → ¬ completes m sp s c) ∧ noCompletion is t := by
  simp [noCompletion, h]

theorem captureView_eq_iff : captureView s = captureView t ↔
    s.protocol = t.protocol ∧ s.bitsReceived = t.bitsReceived ∧ s.highWord = t.highWord ∧ s.lowWord = t.lowWord ∧
      s.activeValid = t.activeValid ∧ s.activeCommand = t.activeCommand ∧ s.phase = t.phase ∧ s.now = t.now := by
  simp [captureView]

theorem monitorView_eq_iff : monitorView s = monitorView t ↔
    s.activeValid = t.activeValid ∧ s.activeCommand = t.activeCommand ∧ s.repeatDeadline = t.repeatDeadline ∧
      s.phase = t.phase ∧ s.now = t.now := by
  simp [monitorView]

/-- What every operation keeps, and taking a word off the stimulus keeps, a step keeps. -/
theorem step_invariant {P : State → Prop} (hP : ∀ i s t, P s → exec i s = .next t → P t)
    (hw : ∀ s ws, P s → P { s with stimulus := ws }) (hs : P s) (h : step s = .next t) : P t := by
  rcases step_cases h with ⟨_, rfl⟩ | ⟨_, rest, i, _, _, he⟩
  · exact hs
  · exact hP i _ t (hw s rest hs) he

end Sys2Proof.Machine
end

