-- ==== Sys2Proof/Laws/PerInstr.lean ====
section
/-! SUPPORT. Per operation: its stimulus word selects its row of R72's table. -/

namespace Sys2Proof.Laws.EncodingRow

/-- The mask and the match of an operation's row (R72). -/
def maskMatch : Instr → Word × Word
  | .attach _ => (0xFFFFFFFFFFFFFFFE, 0x0100000000000000)
  | .detach => (0xFFFFFFFFFFFFFFFF, 0x0200000000000000)
  | .pulse _ _ => (0xFF00000000000000, 0x0300000000000000)
  | .tick => (0xFFFFFFFFFFFFFFFF, 0x0400000000000000)
  | .advance _ => (0xFFFFFFFFF0000000, 0x0500000000000000)
  | .rdcmd => (0xFFFFFFFFFFFFFFFF, 0x1000000000000000)
  | .rdhex => (0xFFFFFFFFFFFFFFFF, 0x1100000000000000)
  | .takenew => (0xFFFFFFFFFFFFFFFF, 0x1200000000000000)
  | .cmdid _ => (0xFFFFFFFFF0000000, 0x1300000000000000)

/-- The operation's word selects the operation's row. -/
def Statement (i : Instr) : Prop :=
  encodeWord i &&& (maskMatch i).1 = (maskMatch i).2

theorem join_and_high (op : BitVec 8) (b : Operand) :
    joinFields { opcode := op, a := 0, b := b } &&& 0xFFFFFFFFF0000000 = joinFields { opcode := op, a := 0, b := 0 } := by
  simp only [joinFields]
  rw [show (0xFFFFFFFFF0000000 : Word) = 0xFF#8 ++ 0xFFFFFFF#28 ++ 0#28 by decide, BitVec.and_append, BitVec.and_append,
    show op &&& 0xFF#8 = op from BitVec.and_allOnes]
  simp

theorem attach (p : Protocol) : Statement (.attach p) := by
  cases p <;> rfl

theorem detach : Statement .detach := rfl

theorem pulse (m s : Duration) : Statement (.pulse m s) := by
  simp only [Statement, maskMatch, encodeWord, fieldsOf, joinFields]
  rw [show (0xFF00000000000000 : Word) = 0xFF#8 ++ 0#28 ++ 0#28 by decide, BitVec.and_append, BitVec.and_append]
  simp

theorem tick : Statement .tick := rfl

theorem advance (t : Operand) : Statement (.advance t) := by
  simp only [Statement, maskMatch, encodeWord, fieldsOf]
  exact (join_and_high _ _).trans (by decide)

theorem rdcmd : Statement .rdcmd := rfl

theorem rdhex : Statement .rdhex := rfl

theorem takenew : Statement .takenew := rfl

theorem cmdid (b : Operand) : Statement (.cmdid b) := by
  simp only [Statement, maskMatch, encodeWord, fieldsOf]
  exact (join_and_high _ _).trans (by decide)

end Sys2Proof.Laws.EncodingRow
end

