-- ==== Sys2Proof/Tests/Slice0.lean ====
section
/-! SUPPORT. Tests against the spec's own examples and vectors (`95_test_vectors.md`; each names its source), and a
witness for the hypotheses of every statement that has some. -/

namespace Sys2Proof.Machine.Tests

/-! ## Well-formedness: an ill-formed term for each check (R72, R74) -/

theorem test_wf_refuses_unlisted_opcode : OpAB.wf { opcode := 0x06, a := 0, b := 0 } = false := by decide
theorem test_wf_refuses_opcode_zero : OpAB.wf { opcode := 0x00, a := 0, b := 0 } = false := by decide
theorem test_wf_refuses_nonzero_a : OpAB.wf { opcode := 0x04, a := 1, b := 0 } = false := by decide
theorem test_wf_refuses_nonzero_b : OpAB.wf { opcode := 0x10, a := 0, b := 1 } = false := by decide
theorem test_wf_refuses_attach_two : OpAB.wf { opcode := 0x01, a := 0, b := 2 } = false := by decide
theorem test_wf_admits_pulse : OpAB.wf { opcode := 0x03, a := 9000, b := 4000 } = true := by decide

/-! ## Decoding (vectors V-D1 to V-D24) -/

theorem test_decode_attach : decodeTableWord 64 0x0100000000000000 = some (.attach .standard) ∧
    decodeTableWord 64 0x0100000000000001 = some (.attach .zeroAddressVariant) := by decide
theorem test_decode_detach : decodeTableWord 64 0x0200000000000000 = some .detach := by decide
theorem test_decode_pulse : decodeTableWord 64 0x0300023280000FA0 = some (.pulse 9000 4000) ∧
    decodeTableWord 64 0x03FFFFFFFFFFFFFF = some (.pulse 268435455 268435455) := by decide
theorem test_decode_tick : decodeTableWord 64 0x0400000000000000 = some .tick := by decide
theorem test_decode_advance : decodeTableWord 64 0x0500000000000078 = some (.advance 120) := by decide
theorem test_decode_rdcmd : decodeTableWord 64 0x1000000000000000 = some .rdcmd := by decide
theorem test_decode_rdhex : decodeTableWord 64 0x1100000000000000 = some .rdhex := by decide
theorem test_decode_takenew : decodeTableWord 64 0x1200000000000000 = some .takenew := by decide
theorem test_decode_cmdid : decodeTableWord 64 0x1300000000000012 = some (.cmdid 0x12) := by decide

/-- V-D13 to V-D24. -/
theorem test_decode_reserved :
    [0x0000000000000000, 0x0100000000000002, 0x0100000010000000, 0x0200000000000001, 0x0400000010000000,
      0x0500000010000000, 0x0600000000000000, 0x0F00000000000000, 0x1000000000000001, 0x13FFFFFFF0000000,
      0x1400000000000000, 0xFF00000000000000].all (fun w => (decodeTableWord 64 w).isNone) = true := by decide

/-- The reasons are R74's. -/
theorem test_decode_reasons :
    decodeWord 0x0100000000000002 = .error (.protocol 2) ∧ decodeWord 0x0400000010000000 = .error (.operandA 1) ∧
    decodeWord 0x0200000000000001 = .error (.operandB 1) ∧ decodeWord 0x1400000000000000 = .error (.opcode 0x14) ∧
    decodeBytes [0x04, 0, 0, 0] = .error .truncated := by decide

/-! ## One step of each operation -/

/-- Just after `ATTACH 0` at 1000 ms: the "Std start" of `95_test_vectors.md`. -/
def std : State := { State.resetAt 1000 with phase := .attached }

/-- Just after `ATTACH 1`: the "ZAV start". -/
def zav : State := { std with protocol := .zeroAddressVariant }

/-- A button is held, in the middle of a frame: the start of the vectors V-C1 to V-C14. -/
def held : State :=
  { std with bitsReceived := 5, highWord := 0x1FF5, activeValid := true, activeCommand := 0x12, datagramSeen := true,
             repeatDeadline := 1120, now := 1070 }

/-- One bit short of the datagram 0x00FF12ED. -/
def nearlyDone : State := { std with bitsReceived := 31, highWord := 0x00FF, lowWord := 0x0976 }

/-- A datagram has arrived and nobody has asked. -/
def unread : State :=
  { std with addressField := 0x00FF, commandField := 0x12ED, hasUnreadDatagram := true, datagramSeen := true }

/-- A property of the state an operation leads to. -/
def leads (i : Instr) (s : State) (p : State → Bool) : Bool :=
  match exec i s with
  | .next t => p t
  | .fault _ => false
  | .refused _ => false

/-- V-C4 to V-C9. -/
theorem test_pulse_buckets :
    leads (.pulse 800 799) held (fun t => t.bitsReceived == 6 && t.highWord == 0x3FEA) = true ∧
    leads (.pulse 800 800) held (fun t => t.bitsReceived == 6 && t.highWord == 0x3FEB) = true ∧
    leads (.pulse 1000 1700) held (fun t => t.bitsReceived == 0 && t.repeatDeadline == 1190) = true ∧
    leads (.pulse 9000 3500) held (fun t => t.bitsReceived == 0 && t.repeatDeadline == 1120) = true := by decide

/-- V-A1's last bit: the fields of S12 and the events. -/
theorem test_pulse_completes :
    leads (.pulse 500 1500) nearlyDone (fun t =>
      t.commandField == 0x12ED && t.addressField == 0x00FF && t.hasUnreadDatagram && t.activeCommand == 0x12 &&
      t.repeatDeadline == 1120 && t.events == [.datagramReceived, .buttonPressed 0x12]) = true := by decide

/-- R160's example: nothing at the deadline, a release one millisecond later. -/
theorem test_tick_strict :
    leads .tick { held with repeatDeadline := 1170, now := 1170 } (fun t => t.activeValid && t.events == []) = true ∧
    leads .tick { held with repeatDeadline := 1170, now := 1171 }
      (fun t => !t.activeValid && t.activeCommand == 0 && t.events == [.buttonReleased 0x12]) = true := by decide

/-- R191's example, and V-L2: a second `ATTACH` is ignored. -/
theorem test_attach :
    leads (.attach .zeroAddressVariant) (State.resetAt 1000)
      (fun t => t.protocol == .zeroAddressVariant && t.phase == .attached) = true ∧
    leads (.attach .standard) zav (fun t => t.protocol == .zeroAddressVariant) = true := by decide

/-- R192's example: the held button is not released. -/
theorem test_detach :
    leads .detach held (fun t => t.phase == .detached && t.activeValid && t.events == []) = true := by decide

/-- R193's example. -/
theorem test_advance : leads (.advance 120) { std with now := 1050 } (fun t => t.now == 1170) = true := by decide

/-- R170's example and V-X1: `0x112`, and the sentinel before any datagram. -/
theorem test_rdcmd :
    leads .rdcmd unread (fun t => t.returns.map responseBits == [(9, 0x112)]) = true ∧
    leads .rdcmd (State.resetAt 1000) (fun t => t.returns.map responseBits == [(9, 0x000)]) = true := by decide

/-- R171's example and V-X5: uppercase, address first. -/
theorem test_rdhex :
    leads .rdhex unread (fun t => t.returns.map responseBits == [(64, 0x3030464631324544)]) = true ∧
    leads .rdhex { unread with addressField := 0xABCD, commandField := 0xEF09 }
      (fun t => t.returns.map responseBits == [(64, 0x4142434445463039)]) = true := by decide

/-- R172's example. -/
theorem test_takenew :
    leads .takenew unread (fun t => !t.hasUnreadDatagram && t.returns == [.newDatagram true]) = true ∧
    leads .takenew std (fun t => t.returns == [.newDatagram false]) = true := by decide

/-- V-X7: the state is untouched but for the value returned. -/
theorem test_cmdid : exec (.cmdid 0x2A) std =
    .next { std with returns := [.commandOf (Config.buttonTable 0x2A)] } := rfl

/-! ## The internal functions of `PULSE` -/

/-- The one-line examples of `41_assembler.md` section 4. -/
theorem test_appendBit_examples :
    appendBit true { std with highWord := 0xBEEF } = (.incomplete, { std with bitsReceived := 1, highWord := 0x7DDF }) ∧
    appendBit true { zav with bitsReceived := 3 } = (.incomplete, { zav with bitsReceived := 9, highWord := 1 }) ∧
    appendBit true { zav with bitsReceived := 8 } = (.incomplete, { zav with bitsReceived := 9, highWord := 1 }) ∧
    (appendBit true nearlyDone).1 = .complete ∧
    appendBit false { std with bitsReceived := 32 } = (.incomplete, { std with bitsReceived := 32 }) := by decide

/-- R141's example. -/
theorem test_onComplete_other_command :
    onComplete { std with activeValid := true, activeCommand := 0x12, commandField := 0x34CB, now := 5000 } =
      { std with activeValid := true, activeCommand := 0x34, commandField := 0x34CB, now := 5000,
                 repeatDeadline := 5120, hasUnreadDatagram := true, datagramSeen := true,
                 events := [.datagramReceived, .buttonReleased 0x12, .buttonPressed 0x34] } := by decide

/-- The status reported upward: a frame boundary is "incomplete" (R101). -/
theorem test_pulse_status :
    (pulseChain 9000 4000 held).1 = .incomplete ∧ (pulseChain 4000 1000 held).1 = .repeated ∧
    (pulseChain 500 1500 nearlyDone).1 = .complete := by decide

/-! ## The ports, the listeners and the text form -/

/-- The packings listed after V-D24. -/
theorem test_event_records :
    eventRecord .datagramReceived = 0x000 ∧ eventRecord (.buttonPressed 0x12) = 0x112 ∧
    eventRecord (.buttonReleased 0x12) = 0x212 ∧ eventRecord (.buttonReleased 0xFF) = 0x2FF ∧
    eventOfRecord 0x300 = none := by decide

/-- A listener that subscribes late misses what came before (R242). -/
theorem test_late_listener :
    (subscribe (.releases (.exactly 0x12)) { held with events := [.buttonReleased 0x12] }).listeners.map
      (fun l => received l { held with events := [.buttonReleased 0x12, .buttonReleased 0x34, .buttonReleased 0x12] }) =
      [[.buttonReleased 0x12]] := by decide

/-- The words of R84's pseudo-operations as `95_test_vectors.md` gives them. -/
theorem test_assemble_pseudo :
    assemble ["LEADER".toList, "  RPT ; keep alive".toList, "GAP".toList, "BIT0".toList, "BIT1".toList] =
      some [0x0300023280000FA0, 0x030000FA000003E8, 0x0300001F40009C40, 0x0300001F400001F4, 0x0300001F400005DC] := by
  decide

/-- R83's examples. -/
theorem test_assemble_lines :
    assembleLine "ATTACH 1".toList = some [.attach .zeroAddressVariant] ∧
    assembleLine "PULSE 9000, 4500".toList = some [.pulse 9000 4500] ∧
    assembleLine "CMDID 0x12".toList = some [.cmdid 0x12] ∧
    assembleLine "ATTACH 2".toList = none := by decide

/-- A stimulus word placed at reset is the next operation, and a reserved one is refused. -/
theorem test_step_from_reset :
    step (State.reset.withFetchWord 64 0x0100000000000001) =
      .next { State.reset with protocol := .zeroAddressVariant, phase := .attached } ∧
    step (State.reset.withFetchWord 64 0) = .refused (.reservedWord (.opcode 0)) := ⟨rfl, rfl⟩

/-! ## Witnesses: each statement's hypotheses can be met together -/

theorem witness_StepAppliesDecodedOperation :
    ({ std with stimulus := [0x0400000000000000] } : State).stimulus = [0x0400000000000000] ∧
    decodeWord 0x0400000000000000 = .ok .tick := by decide

theorem witness_EmptyStimulusIdles : State.reset.stimulus = [] := rfl

theorem witness_ReservedWordsRefused :
    ({ std with stimulus := [0x0100000000000002] } : State).stimulus = [0x0100000000000002] ∧
    ∀ r ∈ stimulusRows, (0x0100000000000002 : Word) &&& r.1 ≠ r.2 := ⟨rfl, by simp [stimulusRows]⟩

theorem witness_MatchingWordsDecodeToTheirRow :
    (0x0100000000000001 : Word) &&& 0xFFFFFFFFFFFFFFFE#64 = 0x0100000000000000#64 ∧
    (0x0200000000000000 : Word) &&& 0xFFFFFFFFFFFFFFFF#64 = 0x0200000000000000#64 ∧
    (0x03FFFFFFFFFFFFFF : Word) &&& 0xFF00000000000000#64 = 0x0300000000000000#64 ∧
    (0x0400000000000000 : Word) &&& 0xFFFFFFFFFFFFFFFF#64 = 0x0400000000000000#64 ∧
    (0x050000000FFFFFFF : Word) &&& 0xFFFFFFFFF0000000#64 = 0x0500000000000000#64 ∧
    (0x1000000000000000 : Word) &&& 0xFFFFFFFFFFFFFFFF#64 = 0x1000000000000000#64 ∧
    (0x1100000000000000 : Word) &&& 0xFFFFFFFFFFFFFFFF#64 = 0x1100000000000000#64 ∧
    (0x1200000000000000 : Word) &&& 0xFFFFFFFFFFFFFFFF#64 = 0x1200000000000000#64 ∧
    (0x130000000FFFFFFF : Word) &&& 0xFFFFFFFFF0000000#64 = 0x1300000000000000#64 := by decide

theorem witness_DecodedWordIsItsEncoding :
    decodeWord 0x0300023280000FA0 = .ok (.pulse 9000 4000) ∧
    decodeBytes [0x04, 0, 0, 0, 0, 0, 0, 0, 0x55] = .ok (.tick, [0x55]) := by decide

theorem witness_StepKeepsReachableInvariants :
    ReachableInv { held with stimulus := [0x0400000000000000] } ∧
    step { held with stimulus := [0x0400000000000000] } = .next held := ⟨by decide, rfl⟩

theorem witness_StepKeepsPressReleaseAlternation :
    replay ({ held with events := [.datagramReceived, .buttonPressed 0x12], stimulus := [0x0200000000000000] } : State).events
      = some (tracker held) ∧
    step { held with events := [.datagramReceived, .buttonPressed 0x12], stimulus := [0x0200000000000000] } =
      .next { held with events := [.datagramReceived, .buttonPressed 0x12], phase := .detached } := ⟨by decide, rfl⟩

theorem witness_StepKeepsZeroAddressByte :
    ReachableInv { zav with bitsReceived := 12, highWord := 0x000F, stimulus := [0x0400000000000000] } ∧
    ZeroAddressInv { zav with bitsReceived := 12, highWord := 0x000F, stimulus := [0x0400000000000000] } ∧
    zav.protocol = .zeroAddressVariant ∧
    step { zav with bitsReceived := 12, highWord := 0x000F, stimulus := [0x0400000000000000] } =
      .next { zav with bitsReceived := 12, highWord := 0x000F } := ⟨by decide, by decide, rfl, rfl⟩

theorem witness_LongDurationsResynchronise : held.phase = .attached ∧
    2700 ≤ (1000 : Duration).toNat + (1700 : Duration).toNat ∧
    12500 ≤ (9000 : Duration).toNat + (3500 : Duration).toNat := by decide

/-- One state for each clause, at the ends of its range. -/
theorem witness_DataBitsTakeTheirPlace :
    dataBit (500, 1500) = some true ∧ dataBit (500, 500) = some false ∧
    (({ zav with bitsReceived := 7 } : State).phase = .attached ∧ ({ zav with bitsReceived := 7 } : State).bitsReceived.val < 8 ∧
      zav.protocol = .zeroAddressVariant) ∧
    (({ zav with bitsReceived := 15 } : State).bitsReceived.val < 16 ∧ ¬({ zav with bitsReceived := 15 } : State).bitsReceived.val < 8) ∧
    (({ std with bitsReceived := 7 } : State).bitsReceived.val < 16 ∧ std.protocol ≠ .zeroAddressVariant) ∧
    (16 ≤ ({ std with bitsReceived := 16 } : State).bitsReceived.val ∧ ({ std with bitsReceived := 30 } : State).bitsReceived.val < 31) := by
  decide

theorem witness_CompletingBitPublishesDatagram : nearlyDone.phase = .attached ∧ nearlyDone.bitsReceived.val = 31 ∧
    dataBit (500, 1500) = some true ∧ (0x12 : CommandId) = ((sourceShift nearlyDone.lowWord true) >>> 8).setWidth 8 := by decide

theorem witness_BitsAfterCompletionIgnored :
    ({ std with bitsReceived := 32 } : State).phase = .attached ∧
    ({ std with bitsReceived := 32 } : State).bitsReceived.val = 32 ∧ dataBit (500, 500) = some false := by decide

theorem completes_nearlyDone : completes 500 1500 nearlyDone 0x12 := ⟨rfl, rfl, true, by decide, by decide⟩

/-- One state for each row of the table. -/
theorem witness_TrackerTransitionTable :
    std.phase = .attached ∧ (∃ t, exec (.pulse 500 1500) nearlyDone = .next t) ∧ (∃ t, exec .tick held = .next t) ∧
    completes 500 1500 nearlyDone 0x12 ∧ tracker nearlyDone = none ∧
    completes 500 1500 { nearlyDone with activeValid := true, activeCommand := 0x12 } 0x12 ∧
    tracker { nearlyDone with activeValid := true, activeCommand := 0x12 } = some 0x12 ∧
    completes 500 1500 { nearlyDone with activeValid := true, activeCommand := 0x34 } 0x12 ∧
    tracker { nearlyDone with activeValid := true, activeCommand := 0x34 } = some 0x34 ∧
    (2700 ≤ (4000 : Duration).toNat + (1000 : Duration).toNat ∧ (4000 : Duration).toNat + (1000 : Duration).toNat < 12500) ∧
    12500 ≤ (9000 : Duration).toNat + (3500 : Duration).toNat ∧
    ((500 : Duration).toNat + (500 : Duration).toNat < 2700 ∧ held.bitsReceived.val ≠ 31) ∧
    tracker held = some 0x12 ∧ held.now ≤ held.repeatDeadline ∧
    (({ held with now := 1121 } : State).repeatDeadline < ({ held with now := 1121 } : State).now) :=
  ⟨rfl, ⟨_, rfl⟩, ⟨_, rfl⟩, completes_nearlyDone, rfl, ⟨rfl, rfl, true, by decide, by decide⟩, rfl,
    ⟨rfl, rfl, true, by decide, by decide⟩, rfl, by decide, by decide, by decide, rfl, by decide, by decide⟩

theorem witness_TickReleasesPastDeadline :
    (({ held with now := 1121 } : State).phase = .attached ∧ held.activeValid = true ∧
      ({ held with now := 1121 } : State).repeatDeadline < ({ held with now := 1121 } : State).now) ∧
    State.reset.phase ≠ .attached ∧ std.activeValid = false ∧
    ({ held with now := 1120 } : State).now ≤ ({ held with now := 1120 } : State).repeatDeadline := by decide

theorem witness_OnlyTickReleasesToIdle :
    Instr.tick ∉ [Instr.advance 500] ∧ tracker { nearlyDone with activeValid := true, activeCommand := 0x34 } ≠ none ∧
    runOps [.advance 500] { nearlyDone with activeValid := true, activeCommand := 0x34 } =
      .next { nearlyDone with activeValid := true, activeCommand := 0x34, now := 1500 } ∧
    completes 500 1500 { nearlyDone with activeValid := true, activeCommand := 0x34, now := 1500 } 0x12 ∧
    tracker { nearlyDone with activeValid := true, activeCommand := 0x34, now := 1500 } = some 0x34 ∧
    (0x34 : CommandId) ≠ 0x12 :=
  ⟨by decide, by decide, rfl, ⟨rfl, rfl, true, by decide, by decide⟩, rfl, by decide⟩

/-- The run has a data bit, a `TICK` and a repeat code and completes nothing; a completion can follow the release. -/
theorem witness_OneExpiryOneRelease :
    ({ held with now := 1121 } : State).phase = .attached ∧ tracker { held with now := 1121 } = some 0x12 ∧
    ({ held with now := 1121 } : State).repeatDeadline < ({ held with now := 1121 } : State).now ∧
    noCompletion [.pulse 500 500, .tick, .pulse 4000 1000] { held with now := 1121 } ∧
    noCompletion [] nearlyDone ∧ completes 500 1500 nearlyDone 0x12 := by
  refine ⟨rfl, rfl, by decide, ⟨?_, fun t h => ?_⟩, trivial, completes_nearlyDone⟩
  · rintro m sp c - ⟨-, h, -⟩
    exact absurd h (by decide)
  cases h
  refine ⟨fun m sp c h => (by cases h), fun t h => ?_⟩
  cases h
  refine ⟨?_, fun t h => trivial⟩
  rintro m sp c - ⟨-, h, -⟩
  exact absurd h (by decide)

theorem witness_SaturatedDurationsClassifyAlike : 2 ^ 28 ≤ 268435456 ∧ 268435455 < 2 ^ 28 := by decide

theorem witness_TakenewReturnsAndClears :
    ∃ t u, exec .takenew unread = .next t ∧ exec .takenew t = .next u := ⟨_, _, rfl, rfl⟩

theorem witness_RdcmdReturnsLatestCommand : unread.datagramSeen = true ∧ State.reset.datagramSeen = false := by decide

theorem witness_AttachSelectsProtocolOnce : State.reset.phase = .unattached ∧ std.phase ≠ .unattached := by decide

theorem witness_DetachWritesOnlyPhase : std.phase = .attached ∧ State.reset.phase ≠ .attached := by decide

theorem witness_CaptureAndMonitorIgnoredUnlessAttached :
    State.reset.phase ≠ .attached ∧ ({ held with phase := .detached } : State).phase ≠ .attached := by decide

theorem witness_PhaseAndProtocolMoveOnlyByHost :
    exec (.attach .zeroAddressVariant) (State.resetAt 1000) = .next zav ∧
    exec .detach std = .next { std with phase := .detached } ∧
    exec .tick std = .next std := ⟨rfl, rfl, rfl⟩

theorem witness_TimeMovesOnlyByAdvance :
    runOps [.advance 500, .tick] std = .next { std with now := 1500 } ∧
    (runOps [.rdcmd, .tick] std = .next { std with returns := [.lastCommand none] } ∧
      ∀ d, Instr.advance d ∉ [Instr.rdcmd, Instr.tick]) := ⟨rfl, rfl, by simp⟩

theorem witness_SilentUnlessAttached :
    ({ held with phase := .detached } : State).phase = .detached ∧
    (State.reset.phase = .unattached ∧ ∀ p, Instr.attach p ∉ [Instr.tick, Instr.pulse 500 500]) := ⟨rfl, rfl, by simp⟩

/-- A change for each clause of R222's writing half. -/
theorem witness_WritesFollowOwnership :
    leads (.attach .zeroAddressVariant) State.reset
      (fun t => t.protocol != State.reset.protocol && t.phase != State.reset.phase) = true ∧
    leads (.pulse 500 1500) nearlyDone (fun t => t.bitsReceived != nearlyDone.bitsReceived &&
      t.hasUnreadDatagram && t.datagramSeen != nearlyDone.datagramSeen && t.activeValid != nearlyDone.activeValid) = true ∧
    leads .takenew unread (fun t => !t.hasUnreadDatagram) = true ∧
    leads .tick { held with now := 1121 } (fun t => t.activeValid != held.activeValid) = true ∧
    leads (.advance 1) std (fun t => t.now != std.now) = true := by decide

/-- Each clause's premise is met by two states that differ in what the party may not read. -/
theorem witness_ReadsFollowOwnership :
    captureView { nearlyDone with addressField := 9, commandField := 9, hasUnreadDatagram := true, repeatDeadline := 7 } =
      captureView nearlyDone ∧
    monitorView { held with toReceiverState := unread.toReceiverState } = monitorView held ∧
    (({ unread with addressField := 9, hasUnreadDatagram := false } : State).commandField = unread.commandField ∧
      ({ unread with addressField := 9, hasUnreadDatagram := false } : State).datagramSeen = unread.datagramSeen) ∧
    (({ unread with datagramSeen := false } : State).addressField = unread.addressField ∧
      ({ unread with datagramSeen := false } : State).commandField = unread.commandField) ∧
    ({ unread with commandField := 9 } : State).hasUnreadDatagram = unread.hasUnreadDatagram ∧
    held.phase = std.phase := ⟨rfl, rfl, ⟨rfl, rfl⟩, ⟨rfl, rfl⟩, rfl, rfl⟩

theorem witness_EventsAppendedInOrder :
    leads (.pulse 500 1500) nearlyDone (fun t => t.events == [.datagramReceived, .buttonPressed 0x12]) = true ∧
    leads .tick { held with now := 1121 } (fun t => t.events == [.buttonReleased 0x12]) = true := by decide

theorem witness_CountMovesWithinFrame :
    leads (.pulse 500 500) held (fun t => t.bitsReceived.val == 6) = true ∧
    leads (.pulse 500 1500) { zav with bitsReceived := 7 } (fun t => t.bitsReceived.val == 9) = true ∧
    leads (.pulse 1000 1700) held (fun t => t.bitsReceived.val == 0) = true ∧
    leads (.pulse 500 1500) nearlyDone (fun t => t.bitsReceived.val == 32 && t.events.contains .datagramReceived) = true := by
  decide

theorem witness_SimultaneousRequestsEitherOrder :
    completes 500 1500 { nearlyDone with activeValid := true, activeCommand := 0x12, repeatDeadline := 999 } 0x12 ∧
    tracker { nearlyDone with activeValid := true, activeCommand := 0x12, repeatDeadline := 999 } = some 0x12 ∧
    (999 : Nat) < nearlyDone.now := ⟨⟨rfl, rfl, true, by decide, by decide⟩, rfl, by decide⟩

theorem witness_ListenersReceiveMatchingEvents :
    ({ sub := .presses .any, since := 0 } : Listener).since ≤ nearlyDone.events.length ∧
    ∃ t, runOps [.pulse 500 1500, .rdcmd] nearlyDone = .next t := ⟨Nat.le_refl 0, _, rfl⟩

theorem witness_ReturnValuePacking :
    (∃ t, exec (.pulse 500 1500) nearlyDone = .next t) ∧ (∃ t, exec .tick held = .next t) ∧
    (∃ t, exec .detach std = .next t) ∧ (∃ t, exec (.attach .standard) State.reset = .next t) ∧
    (∃ t, exec (.advance 5) std = .next t) := ⟨⟨_, rfl⟩, ⟨_, rfl⟩, ⟨_, rfl⟩, ⟨_, rfl⟩, ⟨_, rfl⟩⟩

theorem witness_WholeFrameAssembles :
    std.phase = .attached ∧ std.bitsReceived = 0 ∧
    (List.replicate 32 ((500, 1500) : Duration × Duration)).map dataBit = (List.replicate 32 true).map some ∧
    (List.replicate 32 true).length = 32 ∧ std.protocol = .standard ∧
    (List.replicate 32 ((500, 500) : Duration × Duration)).map dataBit = (List.replicate 32 false).map some ∧
    (List.replicate 32 false).take 8 = List.replicate 8 false := by decide

/-- `k` = 1 and `k` = 8. -/
theorem witness_QuirkFrameAssembles :
    zav.phase = .attached ∧ zav.bitsReceived = 0 ∧ zav.protocol = .zeroAddressVariant ∧
    (List.replicate 23 true).length = 23 ∧
    (List.replicate 24 ((500, 1500) : Duration × Duration)).map dataBit =
      (List.replicate (1 - 1) false ++ true :: List.replicate 23 true).map some ∧
    (List.replicate 7 ((500, 500) : Duration × Duration) ++ List.replicate 24 (500, 1500)).map dataBit =
      (List.replicate (8 - 1) false ++ true :: List.replicate 23 true).map some := by decide

theorem witness_FrameDeliversItsDatagram :
    ({ std with bitsReceived := 20 } : State).phase = .attached ∧ std.protocol = .standard := by decide

theorem witness_StaleAccumulatorsUnobservable : ({ zav with highWord := 0xABCD } : State).bitsReceived = 0 := by decide

theorem witness_IdleDeadlineUnobservable : tracker { std with repeatDeadline := 5 } = none := by decide

/-- A monitor of period 200 ms that runs just past the deadline. -/
theorem witness_ReleaseWithinLatencyBound :
    ({ held with now := 1000 } : State).phase = .attached ∧ tracker { held with now := 1000 } = some 0x12 ∧
    ({ held with now := 1000 } : State).repeatDeadline = ({ held with now := 1000 } : State).now + 120 ∧
    awaitsRelease 200 150 [.advance 121, .tick, .advance 200] { held with now := 1000 } 1000 ∧
    (∃ t, runOps [.advance 121, .tick, .advance 200] { held with now := 1000 } = .next t ∧
      ({ held with now := 1000 } : State).now + 120 + max 200 150 < t.now) := by
  refine ⟨rfl, rfl, rfl, ⟨by decide, rfl, fun t h => ?_⟩, _, rfl, by decide⟩
  cases h
  refine ⟨by decide, rfl, fun t h => ?_⟩
  cases h
  refine ⟨by decide, rfl, fun t h => ?_⟩
  cases h
  exact (by decide : (1321 : Nat) ≤ 1121 + max 200 150)

end Sys2Proof.Machine.Tests
end

section
/-! # Reset -/

open Sys2Proof Sys2Proof.Machine

namespace Sys2Proof.Proofs

/-- Settles O9: `State.resetAt` writes out R39's record, so each conjunct is the projection of one of its fields. Only `now` depends on
`NOW0`, so no case split on its value is needed. -/
theorem resetValues : Obligations.ResetValues := fun _ =>
  ⟨rfl, rfl, rfl, rfl, rfl, rfl, rfl, rfl, rfl, rfl, rfl, rfl, rfl, rfl⟩

end Sys2Proof.Proofs
end

section
/-! # A frame of data bits

What a run of data-bearing pulses does to the accumulators, said once for any starting position, and the two fields it
publishes when it reaches position 32 (R50, R122, R124). -/

open Sys2Proof Sys2Proof.Machine

namespace Sys2Proof.Proofs

/-! ## Bits read most significant first -/

/-- Reading on from a value already read. -/
theorem foldl_msbFirst (bs : List Bool) (n : Nat) :
    bs.foldl (fun n b => 2 * n + b.toNat) n = n * 2 ^ bs.length + msbFirst bs := by
  induction bs generalizing n with
  | nil => simp [msbFirst]
  | cons b bs ih =>
    have hcons : msbFirst (b :: bs) = b.toNat * 2 ^ bs.length + msbFirst bs := by
      rw [msbFirst, List.foldl_cons, ih, Nat.mul_zero, Nat.zero_add]
    rw [List.foldl_cons, ih, hcons, List.length_cons]
    ring

theorem msbFirst_append (bs cs : List Bool) :
    msbFirst (bs ++ cs) = msbFirst bs * 2 ^ cs.length + msbFirst cs := by
  rw [msbFirst, List.foldl_append, foldl_msbFirst]
  rfl

theorem msbFirst_lt (bs : List Bool) : msbFirst bs < 2 ^ bs.length := by
  induction bs using List.reverseRecOn with
  | nil => simp [msbFirst]
  | append_singleton bs b ih =>
    have hb := Bool.toNat_le b
    simp only [msbFirst_append, List.length_append, List.length_singleton, pow_succ]
    simp only [msbFirst, List.foldl_cons, List.foldl_nil] at ih ⊢
    omega

/-- Bits shifted into an accumulator push out what it held (R12). -/
theorem foldl_shiftIn_toNat (bs : List Bool) (w : Half) :
    (bs.foldl shiftIn w).toNat = (w.toNat * 2 ^ bs.length + msbFirst bs) % 2 ^ 16 := by
  rw [← foldl_msbFirst]
  induction bs using List.reverseRecOn with
  | nil => exact (Nat.mod_eq_of_lt w.isLt).symm
  | append_singleton bs b ih =>
    simp only [List.foldl_append, List.foldl_cons, List.foldl_nil, shiftIn_toNat, ih]
    omega

/-- Sixteen bits fill an accumulator, whatever it held (E2). -/
theorem foldl_shiftIn_sixteen {bs : List Bool} (h : bs.length = 16) (w : Half) :
    (bs.foldl shiftIn w).toNat = msbFirst bs := by
  have hlt := msbFirst_lt bs
  rw [h] at hlt
  rw [foldl_shiftIn_toNat, h, Nat.mul_add_mod_self_right, Nat.mod_eq_of_lt hlt]

/-- The command id is the first eight of a command field's bits (R78, R142). -/
theorem commandIdOf_of_msbFirst {f : Half} {bs : List Bool} (hl : bs.length = 16) (hf : f.toNat = msbFirst bs) :
    commandIdOf f = BitVec.ofNat 8 (msbFirst (bs.take 8)) := by
  have hlow := msbFirst_lt (bs.drop 8)
  have hsplit := msbFirst_append (bs.take 8) (bs.drop 8)
  rw [List.length_drop, hl] at hlow hsplit
  rw [List.take_append_drop] at hsplit
  have hid : (commandIdOf f).toNat = msbFirst (bs.take 8) := by
    rw [commandIdOf_toNat, hf]
    omega
  rw [← hid, BitVec.ofNat_toNat, BitVec.setWidth_eq]

/-! ## Runs of data bits -/

/-- Quirk recovery fires for none of the bits `bs`, taken from the state `s` on (R123). -/
def QuirkFree (bs : List Bool) (s : State) : Prop :=
  s.protocol = .standard ∨ ∀ b ∈ bs.take (8 - s.bitsReceived.val), b = false

/-- `s` with the bits `bs` in the accumulators, at frame position `n`: up to position 16 they enter `highWord`, after it
`lowWord` (R122). -/
def withBits (n : FramePos) (bs : List Bool) (s : State) : State :=
  { s with
    bitsReceived := n
    highWord := (bs.take (16 - s.bitsReceived.val)).foldl shiftIn s.highWord
    lowWord := (bs.drop (16 - s.bitsReceived.val)).foldl shiftIn s.lowWord }

section Runs

variable {s : State} {b : Bool} {bs : List Bool} {ps : List (Duration × Duration)}

theorem QuirkFree.of_append {cs : List Bool} (h : QuirkFree (bs ++ cs) s) : QuirkFree bs s :=
  h.imp_right fun h b hb => h b (by rw [List.take_append]; exact List.mem_append_left _ hb)

theorem QuirkFree.head (h : QuirkFree (b :: bs) s) :
    ¬(s.bitsReceived.val < 8 ∧ s.protocol = .zeroAddressVariant ∧ b = true) := by
  rintro ⟨hlt, hp, rfl⟩
  rcases h with hstd | hzero
  · simp [hstd] at hp
  · have hmem : true ∈ (true :: bs).take (8 - s.bitsReceived.val) := by
      rw [show 8 - s.bitsReceived.val = 7 - s.bitsReceived.val + 1 by omega]
      simp
    exact absurd (hzero true hmem) (by decide)

theorem QuirkFree.tail {n : FramePos} (h : QuirkFree (b :: bs) s) (hn : n.val = s.bitsReceived.val + 1) :
    QuirkFree bs (withBits n [b] s) := by
  refine h.imp id fun hzero c hc => hzero c ?_
  have hc' : c ∈ bs.take (8 - n.val) := hc
  by_cases hlt : s.bitsReceived.val < 8
  · rw [show 8 - s.bitsReceived.val = 8 - n.val + 1 by omega, List.take_succ_cons]
    exact List.mem_cons_of_mem b hc'
  · rw [show 8 - n.val = 0 by omega] at hc'
    simp at hc'

theorem withBits_nil (s : State) : withBits s.bitsReceived [] s = s := by
  simp [withBits]

/-- One bit and then the rest are all the bits at once. -/
theorem withBits_withBits_singleton {n p : FramePos} (hp : p.val = s.bitsReceived.val + 1) :
    withBits n bs (withBits p [b] s) = withBits n (b :: bs) s := by
  by_cases hlt : s.bitsReceived.val < 16
  · have hk : 16 - s.bitsReceived.val = 16 - p.val + 1 := by omega
    simp [withBits, hk]
  · have hk : 16 - s.bitsReceived.val = 0 := by omega
    have hk' : 16 - p.val = 0 := by omega
    simp [withBits, hk, hk']

/-- A bit that neither completes the frame nor starts quirk recovery enters its accumulator (R122). -/
theorem appendBit_eq_withBits (hlt : s.bitsReceived.val < 31) (hq : QuirkFree (b :: bs) s) :
    appendBit b s = (.incomplete, withBits (nextPos s.bitsReceived) [b] s) := by
  by_cases h16 : s.bitsReceived.val < 16
  · have hk : 16 - s.bitsReceived.val = 15 - s.bitsReceived.val + 1 := by omega
    rw [appendBit_high h16 hq.head]
    simp [withBits, placeHigh, hk]
  · have hk : 16 - s.bitsReceived.val = 0 := by omega
    rw [appendBit_low (by omega) hlt]
    simp [withBits, placeLow, hk]

/-- Data bits that do not reach position 32 fill the accumulators and change nothing else (R122). -/
theorem runOps_pulses_incomplete (ha : s.phase = .attached) (hd : ps.map dataBit = bs.map some)
    (hlen : s.bitsReceived.val + bs.length < 32) (hq : QuirkFree bs s) :
    ∃ n : FramePos, n.val = s.bitsReceived.val + bs.length ∧ runOps (pulses ps) s = .next (withBits n bs s) := by
  induction bs generalizing s ps with
  | nil =>
    obtain rfl : ps = [] := by simpa using hd
    exact ⟨s.bitsReceived, rfl, by rw [withBits_nil]; rfl⟩
  | cons b bs ih =>
    obtain ⟨⟨m, sp⟩, ps, rfl, hb, hbs⟩ := List.map_eq_cons_iff.mp hd
    rw [List.length_cons] at hlen ⊢
    have hpos := nextPos_val_of_lt (p := s.bitsReceived) (by omega)
    have hexec : exec (.pulse m sp) s = .next (withBits (nextPos s.bitsReceived) [b] s) := by
      rw [exec_pulse_of_dataBit ha hb, appendBit_eq_withBits (by omega) hq]
      rfl
    have hstep : (withBits (nextPos s.bitsReceived) [b] s).bitsReceived.val = s.bitsReceived.val + 1 := hpos
    obtain ⟨n, hn, hrun⟩ := ih (s := withBits (nextPos s.bitsReceived) [b] s) ha hbs (by omega) (hq.tail hpos)
    refine ⟨n, by omega, ?_⟩
    rw [withBits_withBits_singleton hpos] at hrun
    exact (runOps_cons hexec).trans hrun

/-- The 32nd bit publishes both accumulators and runs the completion handler (R124, R141). -/
theorem exec_pulse_completing {m sp : Duration} (ha : s.phase = .attached) (hd : dataBit (m, sp) = some b)
    (h31 : s.bitsReceived.val = 31) :
    ∃ t, exec (.pulse m sp) s = .next t ∧ t.bitsReceived.val = 32 ∧ t.hasUnreadDatagram = true ∧
      t.addressField = s.highWord ∧ t.commandField = shiftIn s.lowWord b ∧
      t.events = s.events ++ completionEvents (tracker s) (commandIdOf t.commandField) := by
  obtain ⟨-, -, hrecv, -, henv⟩ := onComplete_spec (publish (placeLow 32 b s))
  refine ⟨onComplete (publish (placeLow 32 b s)), ?_, ?_, ?_, ?_, ?_, ?_⟩
  · rw [exec_pulse_of_dataBit ha hd, appendBit_last h31]
    rfl
  · rw [hrecv]; rfl
  · rw [hrecv]
  · rw [hrecv]; rfl
  · rw [hrecv]; rfl
  · rw [henv, hrecv]; rfl

/-- Data bits that reach position 32 publish what they leave in the accumulators, and complete one datagram
(R122, R124, R141). -/
theorem runOps_pulses_complete (ha : s.phase = .attached) (hd : ps.map dataBit = bs.map some)
    (hlt : s.bitsReceived.val < 32) (hlen : s.bitsReceived.val + bs.length = 32) (hq : QuirkFree bs s) :
    ∃ t, runOps (pulses ps) s = .next t ∧ t.bitsReceived.val = 32 ∧ t.hasUnreadDatagram = true ∧
      t.addressField = (bs.take (16 - s.bitsReceived.val)).foldl shiftIn s.highWord ∧
      t.commandField = (bs.drop (16 - s.bitsReceived.val)).foldl shiftIn s.lowWord ∧
      t.events = s.events ++ completionEvents (tracker s) (commandIdOf t.commandField) := by
  rcases List.eq_nil_or_concat' bs with rfl | ⟨bs, b, rfl⟩
  · rw [List.length_nil] at hlen
    omega
  · rw [List.length_append, List.length_singleton] at hlen
    rw [List.map_append, List.map_singleton] at hd
    obtain ⟨ps, qs, rfl, hbs, hqs⟩ := List.map_eq_append_iff.mp hd
    obtain ⟨⟨m, sp⟩, rfl, hb⟩ := List.map_eq_singleton_iff.mp hqs
    obtain ⟨n, hn, hrun⟩ := runOps_pulses_incomplete ha hbs (by omega) hq.of_append
    obtain ⟨t, hexec, h32, hunread, haddr, hcmd, hev⟩ :=
      exec_pulse_completing (s := withBits n bs s) ha hb (show n.val = 31 by omega)
    refine ⟨t, ?_, h32, hunread, ?_, ?_, hev⟩
    · have hps : pulses (ps ++ [(m, sp)]) = pulses ps ++ [.pulse m sp] := List.map_append
      rw [hps, runOps_append hrun, runOps_cons hexec]
      rfl
    · rw [haddr, List.take_append_of_le_length (by omega)]
      rfl
    · rw [hcmd, List.drop_append_of_le_length (by omega), List.foldl_append]
      rfl

end Runs

/-- Settles O44: before the 32nd bit the run has only filled the accumulators (`runOps_pulses_incomplete`), and the 32nd
publishes them (`runOps_pulses_complete`). Sixteen bits shifted into an accumulator leave nothing of what it held
(`foldl_shiftIn_sixteen`), so each field is its half of the bits, most significant first. -/
theorem wholeFrameAssembles : Obligations.WholeFrameAssembles := by
  intro s ps bs ha h0 hd hlen hprot
  have hq : QuirkFree bs s := by
    refine hprot.imp_right fun hz b hb => ?_
    rw [h0] at hb
    exact List.eq_of_mem_replicate (hz ▸ hb)
  have hc : s.bitsReceived.val = 0 := by rw [h0]; rfl
  refine ⟨fun k hk => ?_, ?_⟩
  · have hdk : (ps.take k).map dataBit = (bs.take k).map some := by rw [List.map_take, hd, List.map_take]
    have hqk : QuirkFree (bs.take k) s := QuirkFree.of_append (cs := bs.drop k) (by rwa [List.take_append_drop])
    have hlk : s.bitsReceived.val + (bs.take k).length < 32 := by rw [List.length_take]; omega
    obtain ⟨n, -, hrun⟩ := runOps_pulses_incomplete ha hdk hlk hqk
    exact ⟨_, hrun, rfl, rfl, rfl⟩
  · obtain ⟨t, hrun, h32, -, haddr, hcmd, hev⟩ := runOps_pulses_complete ha hd (by omega) (by omega) hq
    rw [hc] at haddr hcmd
    have hcval : t.commandField.toNat = msbFirst (bs.drop 16) := by
      rw [hcmd, foldl_shiftIn_sixteen (by rw [List.length_drop]; omega)]
    refine ⟨t, hrun, h32, ?_, hcval, ?_⟩
    · rw [haddr, foldl_shiftIn_sixteen (by rw [List.length_take]; omega)]
    · rw [hev, commandIdOf_of_msbFirst (by rw [List.length_drop]; omega) hcval]

end Sys2Proof.Proofs
end

section
/-! # Stimulus words

The decoder and the encoder are inverse to each other, and the words that match R72's rows are exactly the encodings.
Every mask of R72 keeps the bits of a word from some position on (R71, R72, R74). -/

open Sys2Proof Sys2Proof.Machine
open Sys2Proof.Laws.EncodingRow (maskMatch)

namespace Sys2Proof.Proofs

/-! ## Decoding and encoding -/

/-- Decoding gives back the operation a word encodes (R72). -/
@[simp] theorem decodeWord_encodeWord (i : Instr) : decodeWord (encodeWord i) = .ok i := by
  rw [decodeWord, encodeWord, cutFields_joinFields]
  cases i with
  | attach p => cases p <;> rfl
  | _ => rfl

theorem eq_fieldsOf_of_bare {o : OpAB} {i j : Instr} (hi : fieldsOf i = { opcode := o.opcode, a := 0, b := 0 })
    (h : bare o i = .ok j) : o = fieldsOf j := by
  obtain ⟨ha, hb, rfl⟩ := bare_eq_ok_iff.mp h
  rw [hi]
  exact congrArg₂ (OpAB.mk o.opcode) ha hb

theorem eq_fieldsOf_of_withB {o : OpAB} {f : Operand → Instr} {j : Instr}
    (hf : ∀ b, fieldsOf (f b) = { opcode := o.opcode, a := 0, b := b }) (h : withB o f = .ok j) : o = fieldsOf j := by
  obtain ⟨ha, rfl⟩ := withB_eq_ok_iff.mp h
  rw [hf, ← ha]

/-- A `b` of at most 1 is its own lowest bit, so the protocol's code holds all of it (R23, R72). -/
theorem eq_fieldsOf_of_attachOf {o : OpAB} {j : Instr} (hop : o.opcode = 0x01#8) (h : attachOf o = .ok j) :
    o = fieldsOf j := by
  obtain ⟨ha, hb, rfl⟩ := attachOf_eq_ok_iff.mp h
  have hbit : (o.b.extractLsb' 0 1).setWidth 28 = o.b := by
    apply BitVec.eq_of_toNat_eq
    simp only [BitVec.toNat_setWidth, BitVec.extractLsb'_toNat, Nat.shiftRight_zero]
    omega
  rw [fieldsOf, code_ofCode, hbit, ← hop]
  exact congrArg₂ (OpAB.mk o.opcode) ha rfl

/-- Fields that decode are those of the operation they decode to (R72). -/
theorem eq_fieldsOf_of_decodeFields {o : OpAB} {i : Instr} (h : decodeFields o = .ok i) : o = fieldsOf i := by
  unfold decodeFields at h
  split_ifs at h with h01 h02 h03 h04 h05 h10 h11 h12 h13
  · exact eq_fieldsOf_of_attachOf h01 h
  · exact eq_fieldsOf_of_bare (by rw [h02]; rfl) h
  · cases h
    rw [fieldsOf, ← h03]
  · exact eq_fieldsOf_of_bare (by rw [h04]; rfl) h
  · exact eq_fieldsOf_of_withB (fun b => by rw [h05]; rfl) h
  · exact eq_fieldsOf_of_bare (by rw [h10]; rfl) h
  · exact eq_fieldsOf_of_bare (by rw [h11]; rfl) h
  · exact eq_fieldsOf_of_bare (by rw [h12]; rfl) h
  · exact eq_fieldsOf_of_withB (fun b => by rw [h13]; rfl) h

/-- A word that decodes is the encoding of what it decodes to (R72). -/
theorem eq_encodeWord_of_decodeWord {w : Word} {i : Instr} (h : decodeWord w = .ok i) : w = encodeWord i := by
  rw [encodeWord, ← eq_fieldsOf_of_decodeFields h, joinFields_cutFields]

/-! ## The rows of R72 -/

theorem encodeWord_and_mask (i : Instr) : encodeWord i &&& (maskMatch i).1 = (maskMatch i).2 := by
  cases i with
  | attach p => exact Laws.EncodingRow.attach p
  | detach => exact Laws.EncodingRow.detach
  | pulse m s => exact Laws.EncodingRow.pulse m s
  | tick => exact Laws.EncodingRow.tick
  | advance t => exact Laws.EncodingRow.advance t
  | rdcmd => exact Laws.EncodingRow.rdcmd
  | rdhex => exact Laws.EncodingRow.rdhex
  | takenew => exact Laws.EncodingRow.takenew
  | cmdid b => exact Laws.EncodingRow.cmdid b

theorem maskMatch_mem_stimulusRows (i : Instr) : maskMatch i ∈ stimulusRows := by
  cases i <;> simp [maskMatch, stimulusRows]

/-- Settles O3: a word that decoded would be an encoding, and every encoding matches the row of its operation. -/
theorem reservedWordsRefused : Obligations.ReservedWordsRefused := by
  intro s w rest hs hno
  rcases hd : decodeWord w with e | i
  · exact ⟨e, rfl, by simp [step, fetch, hs, hd]⟩
  · have hrow := encodeWord_and_mask i
    rw [← eq_encodeWord_of_decodeWord hd] at hrow
    exact absurd hrow (hno _ (maskMatch_mem_stimulusRows i))

/-- A mask that keeps the bits from `k` on leaves a word's value but for those below. -/
theorem toNat_of_and_highMask {w m : Word} {k : Nat} (h : w &&& BitVec.allOnes 64 <<< k = m) :
    w.toNat / 2 ^ k * 2 ^ k = m.toNat := by
  have hle : w.toNat / 2 ^ k * 2 ^ k < 2 ^ 64 := (Nat.div_mul_le_self _ _).trans_lt w.isLt
  rw [← h, ← BitVec.shiftLeft_ushiftRight, BitVec.toNat_shiftLeft, BitVec.toNat_ushiftRight, Nat.shiftRight_eq_div_pow,
    Nat.shiftLeft_eq, Nat.mod_eq_of_lt hle]

/-- A mask of `ADVANCE` and `CMDID` leaves open only the `b` field (R72). -/
theorem eq_joinFields_of_and_mask {w : Word} {op : BitVec 8}
    (h : w &&& 0xFFFFFFFFF0000000#64 = joinFields { opcode := op, a := 0, b := 0 }) :
    w = joinFields { opcode := op, a := 0, b := BitVec.ofNat 28 w.toNat } := by
  have hw := toNat_of_and_highMask (k := 28) h
  apply BitVec.eq_of_toNat_eq
  rw [joinFields_toNat] at hw ⊢
  simp only [BitVec.toNat_ofNat] at hw ⊢
  omega

theorem eq_encodeWord_attach {w : Word} (h : w &&& 0xFFFFFFFFFFFFFFFE#64 = 0x0100000000000000#64) :
    w = encodeWord (.attach (if w.getLsbD 0 then .zeroAddressVariant else .standard)) := by
  have hw := toNat_of_and_highMask (k := 1) h
  have hval : w.toNat = 2 ^ 56 + (w.getLsbD 0).toNat := by
    rw [BitVec.getLsbD, Nat.toNat_testBit]
    simp only [BitVec.toNat_ofNat] at hw
    omega
  apply BitVec.eq_of_toNat_eq
  rw [hval]
  cases w.getLsbD 0 <;> rfl

theorem eq_encodeWord_pulse {w : Word} (h : w &&& 0xFF00000000000000#64 = 0x0300000000000000#64) :
    w = encodeWord (.pulse (BitVec.ofNat 28 (w.toNat / 2 ^ 28)) (BitVec.ofNat 28 w.toNat)) := by
  have hw := toNat_of_and_highMask (k := 56) h
  apply BitVec.eq_of_toNat_eq
  rw [encodeWord, joinFields_toNat]
  simp only [fieldsOf, BitVec.toNat_ofNat] at hw ⊢
  omega

/-- A row whose mask keeps every bit has one word. -/
theorem eq_of_and_fullMask {w m : Word} (h : w &&& 0xFFFFFFFFFFFFFFFF#64 = m) : w = m :=
  BitVec.and_allOnes.symm.trans h

/-- Every mask keeps the opcode, so a word that matches a row has the row's opcode. -/
theorem opcode_of_row {w : Word} {r : Word × Word} (hr : r ∈ stimulusRows) (h : w &&& r.1 = r.2) :
    (cutFields w).opcode = (cutFields r.2).opcode := by
  have hmask : r.1.extractLsb' 56 8 = BitVec.allOnes 8 :=
    (by simp [stimulusRows] : ∀ r ∈ stimulusRows, r.1.extractLsb' 56 8 = BitVec.allOnes 8) r hr
  rw [← h, cutFields, cutFields, BitVec.extractLsb'_and, hmask, BitVec.and_allOnes]

/-- The rows of R72 are told apart by their opcodes. -/
theorem nodup_opcodes : (stimulusRows.map fun r => (cutFields r.2).opcode).Nodup := by
  decide

/-- Settles O4: a word that matches a row is the encoding of the row's operation with the operands its fields hold, so it
decodes to that. Two rows matched by one word have its opcode, and so are the same. -/
theorem matchingWordsDecodeToTheirRow : Obligations.MatchingWordsDecodeToTheirRow := by
  intro w
  have hdec : ∀ {i}, w = encodeWord i → decodeWord w = .ok i := fun h => h ▸ decodeWord_encodeWord _
  refine ⟨fun h => hdec (eq_encodeWord_attach h),
    fun h => hdec (i := .detach) (eq_of_and_fullMask h),
    fun h => hdec (eq_encodeWord_pulse h),
    fun h => hdec (i := .tick) (eq_of_and_fullMask h),
    fun h => hdec (i := .advance _) (eq_joinFields_of_and_mask (op := 0x05) h),
    fun h => hdec (i := .rdcmd) (eq_of_and_fullMask h),
    fun h => hdec (i := .rdhex) (eq_of_and_fullMask h),
    fun h => hdec (i := .takenew) (eq_of_and_fullMask h),
    fun h => hdec (i := .cmdid _) (eq_joinFields_of_and_mask (op := 0x13) h),
    fun r hr q hq hwr hwq => ?_⟩
  exact List.inj_on_of_nodup_map nodup_opcodes hr hq ((opcode_of_row hr hwr).symm.trans (opcode_of_row hq hwq))

end Sys2Proof.Proofs
end

section
/-! # Ports

The events, captured lengths and returned values that cross IRDEC's boundary, in their binary forms (R73, R80 to R82). -/

open Sys2Proof Sys2Proof.Machine

namespace Sys2Proof.Proofs

/-! ## Event records (R80) -/

theorem kind_of_append (k : BitVec 2) (c : CommandId) : (k ++ c : BitVec 10).extractLsb' 8 2 = k :=
  BitVec.extractLsb'_append_eq_left

theorem payload_of_append (k : BitVec 2) (c : CommandId) : (k ++ c : BitVec 10).extractLsb' 0 8 = c :=
  BitVec.extractLsb'_append_eq_right

/-- A record is read back from its two fields (R80). -/
theorem eventOfRecord_eventRecord (e : Event) : eventOfRecord (eventRecord e) = some e := by
  cases e with
  | datagramReceived => rfl
  | buttonPressed c => simp [eventRecord, eventOfRecord, kind_of_append, payload_of_append]
  | buttonReleased c => simp [eventRecord, eventOfRecord, kind_of_append, payload_of_append]

/-- Settles O42: the record is the kind times 256 plus the payload, and the payload is below 256. -/
theorem eventRecordLayout : Obligations.EventRecordLayout := by
  have hpressed : ∀ c : CommandId, (eventRecord (.buttonPressed c)).toNat = 256 + c.toNat := fun c => append_toNat 1#2 c
  have hreleased : ∀ c : CommandId, (eventRecord (.buttonReleased c)).toNat = 512 + c.toNat := fun c =>
    append_toNat 2#2 c
  refine ⟨rfl, fun c => ⟨hpressed c, hreleased c⟩, fun e => ⟨eventOfRecord_eventRecord e, ?_⟩⟩
  cases e with
  | datagramReceived => decide
  | buttonPressed c =>
    have hc := c.isLt
    rw [hpressed]
    omega
  | buttonReleased c =>
    have hc := c.isLt
    rw [hreleased]
    omega

/-! ## Captured lengths (R73) -/

/-- A captured pair is below a bound that the field can hold exactly when the measured sum is. -/
theorem capturedPair_lt_iff {bound : Nat} (h : bound < 2 ^ 28) (mark space : Nat) :
    (pairDuration (capturedDuration mark) (capturedDuration space)).toNat < bound ↔ mark + space < bound := by
  rw [pairDuration_toNat, capturedDuration_toNat, capturedDuration_toNat]
  omega

/-- Settles O20: every threshold of the classifier is below the largest value of the field, so no comparison sees the
saturation. -/
theorem saturatedDurationsClassifyAlike : Obligations.SaturatedDurationsClassifyAlike := by
  refine ⟨fun n => ⟨fun hn => BitVec.eq_of_toNat_eq ?_, fun hn => ?_⟩, fun s mark space => ?_⟩
  · rw [capturedDuration_toNat, Nat.min_eq_right (by omega)]
    rfl
  · rw [capturedDuration_toNat, Nat.min_eq_left (by omega)]
  · simp only [classify, tBit1_eq, tLong_eq, tLeader_eq, capturedPair_lt_iff (by decide : 1600 < 2 ^ 28),
      capturedPair_lt_iff (by decide : 2700 < 2 ^ 28), capturedPair_lt_iff (by decide : 12500 < 2 ^ 28)]
    rfl

/-! ## Returned values (R81, R82) -/

/-- `packHex` for any number of characters: each moves the ones before it up by a byte (R82). -/
def packBytes (cs : List Char) : BitVec 64 :=
  cs.foldl (fun acc c => acc <<< 8 ||| (BitVec.ofNat 8 c.toNat).setWidth 64) 0

theorem packHex_eq_packBytes (v : Vector Char 8) : packHex v = packBytes v.toList := rfl

theorem packBytes_append_singleton_toNat (cs : List Char) (c : Char) :
    (packBytes (cs ++ [c])).toNat = (packBytes cs).toNat % 2 ^ 56 * 2 ^ 8 + c.toNat % 2 ^ 8 := by
  have hstep : packBytes (cs ++ [c]) = packBytes cs <<< 8 ||| (BitVec.ofNat 8 c.toNat).setWidth 64 := by
    rw [packBytes, List.foldl_append]
    rfl
  have hshift : (packBytes cs <<< 8).toNat = ((packBytes cs).toNat % 2 ^ 56) <<< 8 := by
    rw [BitVec.toNat_shiftLeft, Nat.shiftLeft_eq, Nat.shiftLeft_eq]
    omega
  rw [hstep, BitVec.toNat_or, hshift, BitVec.toNat_setWidth, BitVec.toNat_ofNat,
    Nat.mod_eq_of_lt (by omega : c.toNat % 2 ^ 8 < 2 ^ 64), ← Nat.shiftLeft_add_eq_or_of_lt (by omega), Nat.shiftLeft_eq]

/-- Of the last eight characters, the one with `ds` after it is in the byte with `ds.length` below it (R82). -/
theorem packBytes_byte (cs : List Char) (c : Char) (ds : List Char) (h : ds.length < 8) :
    (packBytes (cs ++ c :: ds)).toNat / 256 ^ ds.length % 256 = c.toNat % 256 := by
  induction ds using List.reverseRecOn with
  | nil =>
    rw [packBytes_append_singleton_toNat]
    simp
  | append_singleton ds d ih =>
    rw [List.length_append, List.length_singleton] at h ⊢
    rw [← List.cons_append, ← List.append_assoc, packBytes_append_singleton_toNat]
    have hdrop : ((packBytes (cs ++ c :: ds)).toNat % 2 ^ 56 * 2 ^ 8 + d.toNat % 2 ^ 8) / 256 =
        (packBytes (cs ++ c :: ds)).toNat % (256 ^ ds.length * 256 ^ (7 - ds.length)) := by
      rw [← pow_add, Nat.add_sub_cancel' (by omega)]
      omega
    have hdvd : 256 ∣ 256 ^ (7 - ds.length) := dvd_pow_self 256 (by omega)
    rw [pow_succ' 256, ← Nat.div_div_eq_div_mul, hdrop, Nat.mod_mul_right_div_self, Nat.mod_mod_of_dvd _ hdvd]
    exact ih (by omega)

/-- The first character is in the top byte (R82). -/
theorem packHex_byte (v : Vector Char 8) (k : Nat) (h : k < 8) :
    (packHex v).toNat / 256 ^ (7 - k) % 256 = v[k].toNat % 256 := by
  have hsplit : v.toList.take k ++ v[k] :: v.toList.drop (k + 1) = v.toList := by
    rw [← Vector.getElem_toList (h := by rwa [Vector.length_toList]), List.getElem_cons_drop, List.take_append_drop]
  have hlen : (v.toList.drop (k + 1)).length = 7 - k := by
    rw [List.length_drop, Vector.length_toList]
    omega
  have hbyte := packBytes_byte (v.toList.take k) v[k] (v.toList.drop (k + 1)) (by omega)
  rwa [hsplit, hlen, ← packHex_eq_packBytes] at hbyte

/-! ## Operations that return nothing (R81) -/

/-- A data bit stays inside the block (R122 to R124). -/
theorem appendBit_toEnvironment (b : Bool) (s : State) : (appendBit b s).2.toEnvironment = s.toEnvironment := by
  rcases appendBit_cases b s with ⟨-, h⟩ | ⟨-, -, -, h⟩ | ⟨-, -, h⟩ | ⟨-, -, h⟩ | ⟨-, h⟩
  · rw [h]
  · rw [h]; rfl
  · rw [h]; rfl
  · rw [h]; rfl
  · rw [h]; rfl

/-- Of the environment, `PULSE` writes only the event stream (R101, R216). -/
theorem pulseChain_toEnvironment (m sp : Duration) (s : State) :
    ∃ new, (pulseChain m sp s).2.toEnvironment = { s.toEnvironment with events := s.events ++ new } := by
  rcases pulseChain_cases m sp s with ⟨-, h⟩ | ⟨-, -, h⟩ | ⟨b, -, -, h⟩ | ⟨b, -, -, h⟩
  · exact ⟨[], by rw [h]; simp⟩
  · exact ⟨[], by rw [h]; simp⟩
  · exact ⟨[], by rw [h, appendBit_toEnvironment]; simp⟩
  · obtain ⟨-, -, -, -, henv⟩ := onComplete_spec (publish (placeLow 32 b s))
    exact ⟨_, by rw [h, henv]; rfl⟩

/-- Of the environment, the monitor's check writes only the event stream (R160, R216). -/
theorem monitorCheck_toEnvironment (s : State) :
    ∃ new, (monitorCheck s).toEnvironment = { s.toEnvironment with events := s.events ++ new } := by
  rcases monitorCheck_cases s with ⟨-, -, h⟩ | ⟨-, h⟩
  · exact ⟨[.buttonReleased s.activeCommand], by rw [h]; rfl⟩
  · exact ⟨[], by rw [h]; simp⟩

theorem pulseChain_returns (m sp : Duration) (s : State) : (pulseChain m sp s).2.returns = s.returns := by
  obtain ⟨new, henv⟩ := pulseChain_toEnvironment m sp s
  rw [henv]

theorem monitorCheck_returns (s : State) : (monitorCheck s).returns = s.returns := by
  obtain ⟨new, henv⟩ := monitorCheck_toEnvironment s
  rw [henv]

theorem attach_returns (p : Protocol) (s : State) : (attach p s).returns = s.returns := by
  rcases attach_cases p s with ⟨-, h⟩ | ⟨-, h⟩
  · rw [h]
  · rw [h]

theorem whenAttached_returns {f : State → State} (hf : ∀ s, (f s).returns = s.returns) (s : State) :
    (whenAttached f s).returns = s.returns := by
  by_cases ha : s.phase = .attached
  · rw [whenAttached_of_attached ha, hf]
  · rw [whenAttached_of_ne ha]

/-- The operations other than the accessors hand back nothing (R81). -/
theorem exec_returns {i : Instr} {s t : State} (h : exec i s = .next t)
    (hi : i = .detach ∨ i = .tick ∨ (∃ p, i = .attach p) ∨ (∃ m sp, i = .pulse m sp) ∨ (∃ d, i = .advance d)) :
    t.returns = s.returns := by
  rcases hi with rfl | rfl | ⟨p, rfl⟩ | ⟨m, sp, rfl⟩ | ⟨d, rfl⟩
  · cases h
    exact whenAttached_returns (f := detach) (fun _ => rfl) s
  · cases h
    exact whenAttached_returns monitorCheck_returns s
  · cases h
    exact attach_returns p s
  · cases h
    exact whenAttached_returns (pulseChain_returns m sp) s
  · cases h
    rfl

/-- Settles O43: each port's value is its fields put together, and the string's bytes are read one by one
(`packHex_byte`). Of the operations named, none writes the stream of returned values (`exec_returns`). -/
theorem returnValuePacking : Obligations.ReturnValuePacking :=
  ⟨rfl, fun c => ⟨congrArg (Prod.mk 9) (append_toNat 1#1 c), rfl⟩, fun b => by cases b <;> rfl,
    fun v => ⟨rfl, packHex_byte v⟩, fun _ _ _ h hi => exec_returns h hi⟩

end Sys2Proof.Proofs
end

section
/-! # Durations that end the frame

A pulse of at least 2700 µs carries no data bit: it resynchronises, and below 12500 µs it is a repeat code, which also
refreshes the deadline (R104, R107, R143). -/

open Sys2Proof Sys2Proof.Machine

namespace Sys2Proof.Proofs

variable {s : State} {m sp : Duration}

/-- A repeat code resynchronises and then runs the repeat handler (R104, R143). -/
theorem exec_pulse_repeatCode (ha : s.phase = .attached) (h : 2700 ≤ m.toNat + sp.toNat)
    (h' : m.toNat + sp.toNat < 12500) : exec (.pulse m sp) s = .next (onRepeat (resync s)) := by
  simp [exec, execPulse, ha, pulseChain, classify_repeat h h', afterSymbol]

/-- A frame boundary resynchronises and reaches no handler (R104, R107). -/
theorem exec_pulse_frameBoundary (ha : s.phase = .attached) (h : 12500 ≤ m.toNat + sp.toNat) :
    exec (.pulse m sp) s = .next (resync s) := by
  simp [exec, execPulse, ha, pulseChain, classify_boundary h, afterSymbol]

/-- Settles O15, by the two symbols such a pulse can have: below 12500 µs the repeat handler writes the deadline, and from
there on no one does. -/
theorem longDurationsResynchronise : Obligations.LongDurationsResynchronise := by
  intro s m sp ha h
  by_cases h' : m.toNat + sp.toNat < 12500
  · rw [exec_pulse_repeatCode ha h h', if_pos h']
    rfl
  · rw [exec_pulse_frameBoundary ha (Nat.le_of_not_lt h'), if_neg h']
    rfl

end Sys2Proof.Proofs
end

section
/-! # Data bits inside the frame

A data bit that does not complete the frame leaves the assembler's next state as the state of the whole pulse (R101, R122,
R123). -/

open Sys2Proof Sys2Proof.Machine

namespace Sys2Proof.Proofs

variable {s t : State} {m sp : Duration} {b : Bool}

/-- No handler runs after a bit that the assembler answers with `Incomplete` (R101). -/
theorem exec_pulse_of_incomplete (ha : s.phase = .attached) (hd : dataBit (m, sp) = some b)
    (h : appendBit b s = (.incomplete, t)) : exec (.pulse m sp) s = .next t := by
  rw [exec_pulse_of_dataBit ha hd, h]
  rfl

/-- Settles O16, by the assembler's rule for each clause: `appendBit_quirk`, `appendBit_high` and `appendBit_low`. The
source's shift is the assembler's (`shiftIn_eq_sourceShift`). -/
theorem dataBitsTakeTheirPlace : Obligations.DataBitsTakeTheirPlace := by
  intro s m sp b ha hd
  refine ⟨fun h8 hp hb => ?quirk, fun h16 hq => ?high, fun h16 h31 => ?low⟩
  case quirk =>
    subst hb
    exact exec_pulse_of_incomplete ha hd (appendBit_quirk h8 hp)
  case high =>
    rw [← shiftIn_eq_sourceShift]
    exact ⟨nextPos s.bitsReceived, nextPos_val_of_lt (by omega), exec_pulse_of_incomplete ha hd (appendBit_high h16 hq)⟩
  case low =>
    rw [← shiftIn_eq_sourceShift]
    exact ⟨nextPos s.bitsReceived, nextPos_val_of_lt (by omega), exec_pulse_of_incomplete ha hd (appendBit_low h16 h31)⟩

end Sys2Proof.Proofs
end

section
/-! # The completing bit and the tracker's transitions

What the tracker makes of a completion, a repeat code, any other pulse and a `TICK`, with the events in order and the
deadline (R141 to R145, R160). -/

open Sys2Proof Sys2Proof.Machine

namespace Sys2Proof.Proofs

variable {s t : State} {m sp : Duration} {c : CommandId}

/-! ## The completing bit (R124, R141) -/

/-- The tracker's record is its state of R144 with the deadline. -/
theorem toButtonTrackerState_of_tracker (h : tracker s = some c) :
    s.toButtonTrackerState = { activeValid := true, activeCommand := c, repeatDeadline := s.repeatDeadline } := by
  obtain ⟨hv, rfl⟩ := tracker_eq_some_iff.mp h
  rw [← hv]

/-- The completion handler's whole next state (R141). -/
theorem onComplete_eq (s : State) :
    onComplete s = { s with
      hasUnreadDatagram := true, datagramSeen := true,
      activeValid := true, activeCommand := commandIdOf s.commandField, repeatDeadline := s.now + 120,
      events := s.events ++ completionEvents (tracker s) (commandIdOf s.commandField) } := by
  obtain ⟨htrk, hdl, hrecv, hphase, henv⟩ := onComplete_spec s
  refine State.ext_parts hrecv ?_ henv hphase
  rw [toButtonTrackerState_of_tracker htrk, hdl]

/-- Settles O17: the assembler answers `Complete` with the accumulators published (`appendBit_last`), and on that state the
handler's whole next state is `onComplete_eq`. The source's shifts are the model's (`shiftIn_eq_sourceShift`,
`commandIdOf_eq_shift`). -/
theorem completingBitPublishesDatagram : Obligations.CompletingBitPublishesDatagram := by
  rintro s m sp b c ha h31 hd rfl
  rw [← shiftIn_eq_sourceShift, ← commandIdOf_eq_shift]
  calc exec (.pulse m sp) s
    _ = .next (onComplete (publish (placeLow 32 b s))) := by
      rw [exec_pulse_of_dataBit ha hd, appendBit_last h31]
      rfl
    _ = _ := by
      rw [onComplete_eq]
      rfl

/-! ## The rows of R145 -/

/-- A pulse that completes a datagram leaves its command active, refreshes the deadline and emits the completion's events
(R141). -/
theorem exec_pulse_of_completes (hc : completes m sp s c) (he : exec (.pulse m sp) s = .next t) :
    tracker t = some c ∧ t.repeatDeadline = s.now + 120 ∧
      t.events = s.events ++ completionEvents (tracker s) c := by
  obtain ⟨ha, h31, b, hd, hcmd⟩ := hc
  rw [completingBitPublishesDatagram s m sp b c ha h31 hd hcmd] at he
  cases he
  exact ⟨rfl, rfl, rfl⟩

/-- A data bit stays inside the assembler: no part of the tracker is written (R122 to R124). -/
theorem appendBit_toButtonTrackerState (b : Bool) (s : State) :
    (appendBit b s).2.toButtonTrackerState = s.toButtonTrackerState := by
  rcases appendBit_cases b s with ⟨-, h⟩ | ⟨-, -, -, h⟩ | ⟨-, -, h⟩ | ⟨-, -, h⟩ | ⟨-, h⟩
  · rw [h]
  · rw [h]; rfl
  · rw [h]; rfl
  · rw [h]; rfl
  · rw [h]; rfl

/-- The tracker's state is read off its own record (R144). -/
theorem tracker_congr (h : t.toButtonTrackerState = s.toButtonTrackerState) : tracker t = tracker s := by
  simp only [tracker, h]

/-- A pulse that is neither a repeat code nor the 32nd bit reaches no handler (R101, R107). -/
theorem exec_pulse_of_no_handler (ha : s.phase = .attached)
    (h : 12500 ≤ m.toNat + sp.toNat ∨ (m.toNat + sp.toNat < 2700 ∧ s.bitsReceived.val ≠ 31))
    (he : exec (.pulse m sp) s = .next t) :
    t.toButtonTrackerState = s.toButtonTrackerState ∧ t.events = s.events := by
  rw [exec_pulse, whenAttached_of_attached ha] at he
  cases he
  rcases pulseChain_cases m sp s with ⟨-, hp⟩ | ⟨hge, hlt, -⟩ | ⟨b, -, -, hp⟩ | ⟨b, hd, h31, -⟩
  · rw [hp]
    exact ⟨rfl, rfl⟩
  · omega
  · rw [hp, appendBit_toButtonTrackerState, appendBit_toEnvironment]
    exact ⟨rfl, rfl⟩
  · have hdata : ¬ 2700 ≤ m.toNat + sp.toNat := fun hge => by simp [dataBit_eq_none_iff.mpr hge] at hd
    omega

/-- A `TICK` while attached, as a transition of the tracker (R160). -/
theorem exec_tick_tracker (ha : s.phase = .attached) (he : exec .tick s = .next t) :
    t.repeatDeadline = s.repeatDeadline ∧
    (tracker s = none → tracker t = none ∧ t.events = s.events) ∧
    (∀ c, tracker s = some c →
      (s.repeatDeadline < s.now → tracker t = none ∧ t.events = s.events ++ [.buttonReleased c]) ∧
      (s.now ≤ s.repeatDeadline → tracker t = some c ∧ t.events = s.events)) := by
  rw [exec_tick, whenAttached_of_attached ha] at he
  cases he
  rcases monitorCheck_cases s with ⟨hv, hlt, h⟩ | ⟨hkeep, h⟩
  · have hs : tracker s = some s.activeCommand := tracker_eq_some_iff.mpr ⟨hv, rfl⟩
    rw [h, hs]
    refine ⟨rfl, nofun, fun c hc => ⟨fun _ => ⟨rfl, ?_⟩, fun hge => absurd hlt (Nat.not_lt.mpr hge)⟩⟩
    cases hc
    rfl
  · rw [h]
    refine ⟨rfl, fun hn => ⟨hn, rfl⟩, fun c hc => ⟨fun hlt => ?_, fun _ => ⟨hc, rfl⟩⟩⟩
    obtain ⟨hv, -⟩ := tracker_eq_some_iff.mp hc
    rcases hkeep with hidle | hge
    · simp [hv] at hidle
    · omega

/-- Settles O21, one lemma for each kind of request: a completion (`exec_pulse_of_completes`, whose events
`completionEvents` tells apart by the tracker's state), a repeat code (`exec_pulse_repeatCode`), any other pulse
(`exec_pulse_of_no_handler`) and a `TICK` (`exec_tick_tracker`). -/
theorem trackerTransitionTable : Obligations.TrackerTransitionTable := by
  intro s t ha
  refine ⟨fun m sp he => ⟨fun c hc => ?complete, fun h h' => ?repeatCode, fun h => ?other⟩, exec_tick_tracker ha⟩
  case complete =>
    obtain ⟨htrk, hdl, hev⟩ := exec_pulse_of_completes hc he
    refine ⟨htrk, hdl, fun hs => ?idle, fun hs => ?same, fun o hs hne => ?different⟩
    case idle => rw [hev, hs]; rfl
    case same => rw [hev, hs, completionEvents, if_pos rfl]
    case different => rw [hev, hs, completionEvents, if_neg hne]
  case repeatCode =>
    rw [exec_pulse_repeatCode ha h h'] at he
    cases he
    exact ⟨rfl, rfl, rfl⟩
  case other =>
    obtain ⟨hrec, hev⟩ := exec_pulse_of_no_handler ha h he
    exact ⟨tracker_congr hrec, hev, by rw [hrec]⟩

end Sys2Proof.Proofs
end

section
/-! # The monitor's release

`TICK` on every state (R160); every move of the tracker, by the operation that makes it (R141, R160, R162); and what that
makes of a run without a `TICK` (R162) and of a run without a completion (R163). -/

open Sys2Proof Sys2Proof.Machine

namespace Sys2Proof.Proofs

variable {s t : State} {i : Instr} {is : List Instr} {m sp : Duration}

/-! ## `TICK` (R160) -/

theorem monitorCheck_of_expired (hv : s.activeValid = true) (hlt : s.repeatDeadline < s.now) :
    monitorCheck s = clearActive (emit (.buttonReleased s.activeCommand) s) :=
  if_pos (expired_iff.mpr ⟨hv, hlt⟩)

theorem monitorCheck_of_not_expired (h : s.activeValid = false ∨ s.now ≤ s.repeatDeadline) : monitorCheck s = s := by
  rcases monitorCheck_cases s with ⟨hv, hlt, -⟩ | ⟨-, hm⟩
  · rcases h with hidle | hge
    · simp [hv] at hidle
    · omega
  · exact hm

/-- Settles O22: while attached `TICK` is the monitor's check, by whether the deadline has expired
(`monitorCheck_of_expired`, `monitorCheck_of_not_expired`); in the other phases it is ignored. -/
theorem tickReleasesPastDeadline : Obligations.TickReleasesPastDeadline := by
  refine fun s => ⟨fun ha hv hlt => ?release, fun h => ?nothing⟩
  case release =>
    rw [exec_tick, whenAttached_of_attached ha, monitorCheck_of_expired hv hlt]
    rfl
  case nothing =>
    rw [exec_tick]
    by_cases ha : s.phase = .attached
    · rw [whenAttached_of_attached ha, monitorCheck_of_not_expired (h.resolve_left (not_not_intro ha))]
    · rw [whenAttached_of_ne ha]

/-! ## Every move of the tracker, by operation (R144, R162) -/

/-- A sum below 2700 µs carries a data bit (R76), so at position 31 it completes the datagram (R124). -/
theorem exists_completes (ha : s.phase = .attached) (h31 : s.bitsReceived.val = 31)
    (h : m.toNat + sp.toNat < 2700) : ∃ c, completes m sp s c := by
  obtain ⟨b, hd⟩ := Option.ne_none_iff_exists'.mp (mt dataBit_eq_none_iff.mp (Nat.not_le.mpr h))
  exact ⟨_, ha, h31, b, hd, rfl⟩

/-- A pulse that completes no datagram moves neither the tracker nor the event stream, in any phase (R101, R143). -/
theorem exec_pulse_of_not_completes (hc : ∀ c, ¬ completes m sp s c) (he : exec (.pulse m sp) s = .next t) :
    tracker t = tracker s ∧ t.events = s.events := by
  by_cases ha : s.phase = .attached
  · by_cases hrep : 2700 ≤ m.toNat + sp.toNat ∧ m.toNat + sp.toNat < 12500
    · rw [exec_pulse_repeatCode ha hrep.1 hrep.2] at he
      cases he
      exact ⟨rfl, rfl⟩
    · have hother : 12500 ≤ m.toNat + sp.toNat ∨ (m.toNat + sp.toNat < 2700 ∧ s.bitsReceived.val ≠ 31) := by
        rcases Nat.lt_or_ge (m.toNat + sp.toNat) 2700 with hbit | hlong
        · refine .inr ⟨hbit, fun h31 => ?_⟩
          obtain ⟨c, hcomp⟩ := exists_completes ha h31 hbit
          exact hc c hcomp
        · omega
      obtain ⟨hrec, hev⟩ := exec_pulse_of_no_handler ha hother he
      exact ⟨tracker_congr hrec, hev⟩
  · rw [exec_pulse, whenAttached_of_ne ha] at he
    cases he
    exact ⟨rfl, rfl⟩

/-- What an operation can do to the tracker and the event stream: a completing pulse presses (R141), an expired `TICK`
releases (R160), and anything else touches neither (R162). -/
theorem exec_tracker_cases (he : exec i s = .next t) :
    (∃ m sp c, i = .pulse m sp ∧ completes m sp s c ∧ tracker t = some c ∧
      t.events = s.events ++ completionEvents (tracker s) c) ∨
    (∃ c, i = .tick ∧ tracker s = some c ∧ tracker t = none ∧ t.events = s.events ++ [.buttonReleased c]) ∨
    (tracker t = tracker s ∧ t.events = s.events) := by
  cases i with
  | pulse m sp =>
    by_cases hc : ∃ c, completes m sp s c
    · obtain ⟨c, hc⟩ := hc
      obtain ⟨htrk, -, hev⟩ := exec_pulse_of_completes hc he
      exact .inl ⟨m, sp, c, rfl, hc, htrk, hev⟩
    · exact .inr (.inr (exec_pulse_of_not_completes (not_exists.mp hc) he))
  | tick =>
    obtain ⟨hrelease, hnothing⟩ := tickReleasesPastDeadline s
    by_cases h : s.phase = .attached ∧ s.activeValid = true ∧ s.repeatDeadline < s.now
    · obtain ⟨ha, hv, hlt⟩ := h
      rw [hrelease ha hv hlt] at he
      cases he
      exact .inr (.inl ⟨s.activeCommand, rfl, tracker_eq_some_iff.mpr ⟨hv, rfl⟩, rfl, rfl⟩)
    · rw [hnothing (by simpa only [not_and_or, Bool.not_eq_true, Nat.not_lt] using h)] at he
      cases he
      exact .inr (.inr ⟨rfl, rfl⟩)
  | attach p =>
    right; right
    rw [exec_attach] at he
    cases he
    rcases attach_cases p s with ⟨-, h⟩ | ⟨-, h⟩
    · rw [h]; exact ⟨rfl, rfl⟩
    · rw [h]; exact ⟨rfl, rfl⟩
  | detach =>
    right; right
    rw [exec_detach] at he
    cases he
    by_cases ha : s.phase = .attached
    · rw [whenAttached_of_attached ha]; exact ⟨rfl, rfl⟩
    · rw [whenAttached_of_ne ha]; exact ⟨rfl, rfl⟩
  | advance d => cases he; exact .inr (.inr ⟨rfl, rfl⟩)
  | rdcmd => cases he; exact .inr (.inr ⟨rfl, rfl⟩)
  | rdhex => cases he; exact .inr (.inr ⟨rfl, rfl⟩)
  | takenew => cases he; exact .inr (.inr ⟨rfl, rfl⟩)
  | cmdid b => cases he; exact .inr (.inr ⟨rfl, rfl⟩)

/-- No operation faults or refuses (R210). -/
theorem exists_exec_next (i : Instr) (s : State) : ∃ t, exec i s = .next t := by
  cases i <;> exact ⟨_, rfl⟩

/-! ## Runs -/

/-- Only a `TICK` takes the tracker to `Idle`, so a run without one keeps a button pressed (R162). -/
theorem tracker_ne_none_of_tick_notMem (htick : .tick ∉ is) (hs : tracker s ≠ none) (hrun : runOps is s = .next t) :
    tracker t ≠ none := by
  induction is generalizing s with
  | nil =>
    cases hrun
    exact hs
  | cons i is ih =>
    obtain ⟨hi, his⟩ := not_or.mp (mt List.mem_cons.mpr htick)
    obtain ⟨u, he⟩ := exists_exec_next i s
    rw [runOps_cons he] at hrun
    refine ih his ?_ hrun
    rcases exec_tracker_cases he with ⟨-, -, c, -, -, hu, -⟩ | ⟨-, rfl, -⟩ | ⟨hu, -⟩
    · simp [hu]
    · exact absurd rfl hi
    · rwa [hu]

/-- Settles O23: the run keeps the button pressed (`tracker_ne_none_of_tick_notMem`), and the completion after it goes
through the handler (`exec_pulse_of_completes`). -/
theorem onlyTickReleasesToIdle : Obligations.OnlyTickReleasesToIdle := by
  intro ops s t htick hs hrun
  refine ⟨tracker_ne_none_of_tick_notMem htick hs hrun, fun m sp c o hc ho hne => ?_⟩
  obtain ⟨u, he⟩ := exists_exec_next (.pulse m sp) t
  obtain ⟨hu, -, hev⟩ := exec_pulse_of_completes hc he
  rw [ho, completionEvents, if_neg hne] at hev
  exact ⟨u, he, hu, hev⟩

/-- From `Idle` only a completion emits or presses, so a run without one is silent and stays `Idle` (R163). -/
theorem runOps_silent_of_noCompletion (hs : tracker s = none) (hn : noCompletion is s) :
    ∃ u, runOps is s = .next u ∧ u.events = s.events ∧ tracker u = none := by
  induction is generalizing s with
  | nil => exact ⟨s, rfl, rfl, hs⟩
  | cons i is ih =>
    obtain ⟨t, he⟩ := exists_exec_next i s
    obtain ⟨hi, hrest⟩ := (noCompletion_cons he).mp hn
    have hquiet : tracker t = tracker s ∧ t.events = s.events := by
      rcases exec_tracker_cases he with ⟨m, sp, c, rfl, hc, -⟩ | ⟨c, -, hc, -⟩ | h
      · exact absurd hc (hi m sp c rfl)
      · simp [hs] at hc
      · exact h
    obtain ⟨htrk, hev⟩ := hquiet
    obtain ⟨u, hrun, huev, hu⟩ := ih (htrk.trans hs) hrest
    exact ⟨u, (runOps_cons he).trans hrun, huev.trans hev, hu⟩

/-- Settles O24: the `TICK` releases (`exec_tick_tracker`), the run after it is silent (`runOps_silent_of_noCompletion`),
and a completion then finds the tracker `Idle` (`exec_pulse_of_completes`). -/
theorem oneExpiryOneRelease : Obligations.OneExpiryOneRelease := by
  intro ops s c ha hs hlt
  obtain ⟨t, hexec⟩ := exists_exec_next .tick s
  obtain ⟨-, -, hpressed⟩ := exec_tick_tracker ha hexec
  obtain ⟨hrelease, -⟩ := hpressed c hs
  obtain ⟨ht, htev⟩ := hrelease hlt
  refine ⟨t, hexec, htev, ht, fun hn => ?_⟩
  obtain ⟨u, hrun, huev, hu⟩ := runOps_silent_of_noCompletion ht hn
  refine ⟨u, hrun, huev, hu, fun m sp d hd => ?_⟩
  obtain ⟨v, he⟩ := exists_exec_next (.pulse m sp) u
  obtain ⟨hv, -, hvev⟩ := exec_pulse_of_completes hd he
  rw [hu] at hvev
  exact ⟨v, he, hv, hvev⟩

end Sys2Proof.Proofs
end

section
/-! # The polling accessors

What each of the four hands back, and that it writes nothing else but the unread flag of `TAKENEW` (R170 to R174). -/

open Sys2Proof Sys2Proof.Machine

namespace Sys2Proof.Proofs

variable {s : State}

/-! ## `RDHEX` (R171) -/

/-- Nibble `k` of a bit vector, counted from the least significant, as a digit to base 16. -/
theorem nibble_toNat {w : Nat} (x : BitVec w) (k : Nat) :
    (x.extractLsb' (4 * k) 4).toNat = x.toNat / 16 ^ k % 16 := by
  rw [BitVec.extractLsb'_toNat, Nat.shiftRight_eq_div_pow, pow_mul]
  rfl

/-- The character of a digit, read off R82's alphabet. -/
theorem alphabet_getElem?_eq_hexDigit (v : BitVec 4) :
    ['0', '1', '2', '3', '4', '5', '6', '7', '8', '9', 'A', 'B', 'C', 'D', 'E', 'F'][v.toNat]? = some (hexDigit v) := by
  revert v
  decide

/-- A field's characters are the digits of its nibbles, most significant first (R82). -/
theorem hexField_getElem (f : Half) {k : Nat} (h : k < 4) :
    (hexField f)[k] = hexDigit (f.extractLsb' (4 * (3 - k)) 4) := by
  match k with
  | 0 | 1 | 2 | 3 => rfl

/-- The characters of `RDHEX` are the digits of the nibbles of the two fields side by side, most significant first
(R171). -/
theorem lastDatagramHex_getElem (s : State) {k : Nat} (h : k < 8) :
    (lastDatagramHex s)[k] = hexDigit ((s.addressField ++ s.commandField).extractLsb' (4 * (7 - k)) 4) := by
  by_cases hk : k < 4
  · have hpos : 4 * (7 - k) - 16 = 4 * (3 - k) := by omega
    simp only [lastDatagramHex]
    rw [Vector.getElem_append_left hk, hexField_getElem _ hk, BitVec.extractLsb'_append_eq_of_le (by omega), hpos]
  · have hpos : 3 - (k - 4) = 7 - k := by omega
    simp only [lastDatagramHex]
    rw [Vector.getElem_append_right h (by omega), hexField_getElem _ (by omega), hpos,
      BitVec.extractLsb'_append_eq_of_add_le (by omega)]

/-- Settles O26: the string's characters are digits of nibbles (`lastDatagramHex_getElem`), a nibble is a digit to base 16
of the number the two fields make (`nibble_toNat`, `append_toNat`), and `hexDigit` writes it in R82's alphabet. -/
theorem rdhexReturnsUppercaseDigits : Obligations.RdhexReturnsUppercaseDigits := by
  refine fun s => ⟨lastDatagramHex s, exec_rdhex s, fun k h => ?_⟩
  rw [lastDatagramHex_getElem s h, ← alphabet_getElem?_eq_hexDigit, nibble_toNat, append_toNat]
  rfl

/-! ## `RDCMD` (R170) -/

theorem lastButtonCommand_of_seen (h : s.datagramSeen = true) :
    lastButtonCommand s = some (commandIdOf s.commandField) := by
  simp [lastButtonCommand, h]

theorem lastButtonCommand_of_not_seen (h : s.datagramSeen = false) : lastButtonCommand s = none := by
  simp [lastButtonCommand, h]

/-- A command id is packed under a valid bit, which counts 256 (R81). -/
theorem packCommand_some_toNat (c : CommandId) : (packCommand (some c)).toNat = 256 + c.toNat :=
  append_toNat 1#1 c

/-- Settles O25, by whether a datagram ever arrived; the command id is the upper byte, as a shift (`commandIdOf_eq_shift`)
and as a quotient (`commandIdOf_toNat`). -/
theorem rdcmdReturnsLatestCommand : Obligations.RdcmdReturnsLatestCommand := by
  refine fun s => ⟨lastButtonCommand s, exec_rdcmd s, fun hseen => ?seen, fun hseen => ?notSeen⟩
  case seen =>
    rw [lastButtonCommand_of_seen hseen, packCommand_some_toNat, commandIdOf_toNat, commandIdOf_eq_shift]
    exact ⟨rfl, rfl⟩
  case notSeen =>
    rw [lastButtonCommand_of_not_seen hseen]
    exact ⟨rfl, rfl⟩

/-! ## `TAKENEW` and `CMDID` (R172, R173) -/

/-- Settles O27: the second poll reads the flag that `clearUnread` left (`clearUnread_hasUnreadDatagram`). -/
theorem takenewReturnsAndClears : Obligations.TakenewReturnsAndClears := by
  refine fun s => ⟨exec_takenew s, fun t u ht hu => ?_⟩
  rw [exec_takenew] at ht hu
  cases ht
  cases hu
  rfl

/-- Settles O28, by the operation's equation: `exec_cmdid` looks up the uninterpreted table and does nothing else. -/
theorem cmdidLooksUpTable : Obligations.CmdidLooksUpTable :=
  fun s b => exec_cmdid b s

end Sys2Proof.Proofs
end

section
/-! # Attachment, detachment and time

The three operations of the host and the environment: what each writes, and that the capture context and the monitor are
inert in a phase other than `Attached` (R190 to R193). -/

open Sys2Proof Sys2Proof.Machine

namespace Sys2Proof.Proofs

variable {s : State}

/-- R101, R190. -/
theorem exec_pulse_of_not_attached (h : s.phase ≠ .attached) (m sp : Duration) : exec (.pulse m sp) s = .next s := by
  rw [exec_pulse, whenAttached_of_ne h]

/-- R160, R190. -/
theorem exec_tick_of_not_attached (h : s.phase ≠ .attached) : exec .tick s = .next s := by
  rw [exec_tick, whenAttached_of_ne h]

/-- R190, R192. -/
theorem exec_detach_of_not_attached (h : s.phase ≠ .attached) : exec .detach s = .next s := by
  rw [exec_detach, whenAttached_of_ne h]

/-- Settles O29: `attach_cases` splits on the phase as R191 does, so each half of the statement meets one of its cases and
contradicts the other. -/
theorem attachSelectsProtocolOnce : Obligations.AttachSelectsProtocolOnce := by
  intro s p
  rw [exec_attach]
  rcases attach_cases p s with ⟨hun, hattach⟩ | ⟨hne, hattach⟩
  · exact ⟨fun _ => by rw [hattach], fun hne => absurd hun hne⟩
  · exact ⟨fun hun => absurd hun hne, fun _ => by rw [hattach]⟩

/-- Settles O30: from `Attached` the next state is `detach s`, whose phase is `Detached`, so `TICK` and `PULSE` are ignored
in it (`exec_tick_of_not_attached`, `exec_pulse_of_not_attached`); in another phase `DETACH` itself is. -/
theorem detachWritesOnlyPhase : Obligations.DetachWritesOnlyPhase := by
  refine fun s => ⟨fun ha => ?_, exec_detach_of_not_attached⟩
  have hinert : (detach s).phase ≠ .attached := by simp [detach]
  refine ⟨detach s, ?_, rfl, exec_tick_of_not_attached hinert, exec_pulse_of_not_attached hinert⟩
  rw [exec_detach, whenAttached_of_attached ha]

/-- Settles O31, by the operation's equation: `ADVANCE` has no case split on the phase, and milliseconds do not wrap (R13). -/
theorem advanceMovesOnlyTime : Obligations.AdvanceMovesOnlyTime :=
  fun s t => exec_advance t s

end Sys2Proof.Proofs
end

section
/-! # Completion and events

No operation faults or is refused (R210), which events a subscription receives (R214), and a `PULSE` and a `TICK` that are
requested together (R218). -/

open Sys2Proof Sys2Proof.Machine

namespace Sys2Proof.Proofs

variable {s t : State} {m sp : Duration} {c d : CommandId}

/-- Settles O14, by the next state that each operation's meaning writes out (`exists_exec_next`). -/
theorem everyOperationCompletes : Obligations.EveryOperationCompletes :=
  exists_exec_next

/-! ## Subscriptions (R214) -/

theorem accepts_exactly_iff : (Filter.exactly c).accepts d = true ↔ d = c :=
  beq_iff_eq.trans eq_comm

/-- Settles O40: on its own kind a subscription receives what its filter accepts, where `Exactly(c)` compares the payload
(`accepts_exactly_iff`), and each other pair of kinds is a row of `receives`. -/
theorem subscriptionsMatchEvents : Obligations.SubscriptionsMatchEvents := fun _ _ _ =>
  ⟨rfl, rfl, rfl, accepts_exactly_iff, accepts_exactly_iff, rfl, rfl, rfl, rfl, rfl, rfl⟩

/-! ## Simultaneous requests (R218) -/

/-- The monitor's check writes only its tracker's record and the event stream (R160, R222). -/
theorem monitorCheck_frame (s : State) :
    (monitorCheck s).toReceiverState = s.toReceiverState ∧ (monitorCheck s).phase = s.phase := by
  rcases monitorCheck_cases s with ⟨-, -, h⟩ | ⟨-, h⟩
  · rw [h]
    exact ⟨rfl, rfl⟩
  · rw [h]
    exact ⟨rfl, rfl⟩

/-- A `TICK` between a frame's 31st and 32nd bit leaves the completion as it was: it touches no part of the frame
(R160, R222). -/
theorem completes_of_exec_tick (hc : completes m sp s c) (he : exec .tick s = .next t) : completes m sp t c := by
  obtain ⟨ha, h31, hbit⟩ := hc
  rw [exec_tick, whenAttached_of_attached ha] at he
  cases he
  obtain ⟨hrecv, hphase⟩ := monitorCheck_frame s
  exact ⟨hphase.trans ha, by rwa [hrecv], by rwa [hrecv]⟩

/-- A completion moves neither the lifecycle nor the time (R141, R222). -/
theorem exec_pulse_frame_of_completes (hc : completes m sp s c) (he : exec (.pulse m sp) s = .next t) :
    t.phase = s.phase ∧ t.now = s.now := by
  obtain ⟨ha, h31, b, hd, hcmd⟩ := hc
  rw [completingBitPublishesDatagram s m sp b c ha h31 hd hcmd] at he
  cases he
  exact ⟨rfl, rfl⟩

/-- The `TICK` first: it releases (`exec_tick_tracker`), and the completion then finds the tracker `Idle`. -/
theorem exec_tick_then_pulse (hc : completes m sp s c) (hs : tracker s = some c) (hlt : s.repeatDeadline < s.now) :
    ∃ t u, exec .tick s = .next t ∧ exec (.pulse m sp) t = .next u ∧
      u.events = s.events ++ [.buttonReleased c, .datagramReceived, .buttonPressed c] := by
  have ha : s.phase = .attached := hc.1
  obtain ⟨t, ht⟩ := exists_exec_next .tick s
  obtain ⟨u, hu⟩ := exists_exec_next (.pulse m sp) t
  obtain ⟨-, -, hpressed⟩ := exec_tick_tracker ha ht
  obtain ⟨hrelease, -⟩ := hpressed c hs
  obtain ⟨htrk, htev⟩ := hrelease hlt
  obtain ⟨-, -, huev⟩ := exec_pulse_of_completes (completes_of_exec_tick hc ht) hu
  refine ⟨t, u, ht, hu, ?_⟩
  calc u.events
    _ = t.events ++ completionEvents none c := by rw [huev, htrk]
    _ = (s.events ++ [.buttonReleased c]) ++ [.datagramReceived, .buttonPressed c] := by rw [htev]; rfl
    _ = s.events ++ [.buttonReleased c, .datagramReceived, .buttonPressed c] := List.append_assoc ..

/-- The `PULSE` first: it refreshes the deadline to 120 ms from now, so the `TICK` releases nothing. -/
theorem exec_pulse_then_tick (hc : completes m sp s c) (hs : tracker s = some c) :
    ∃ t u, exec (.pulse m sp) s = .next t ∧ exec .tick t = .next u ∧
      u.events = s.events ++ [.datagramReceived] ∧ tracker u = some c := by
  have ha : s.phase = .attached := hc.1
  obtain ⟨t, ht⟩ := exists_exec_next (.pulse m sp) s
  obtain ⟨u, hu⟩ := exists_exec_next .tick t
  obtain ⟨htrk, hdl, htev⟩ := exec_pulse_of_completes hc ht
  obtain ⟨hphase, hnow⟩ := exec_pulse_frame_of_completes hc ht
  have hfresh : t.now ≤ t.repeatDeadline := by omega
  obtain ⟨-, -, hpressed⟩ := exec_tick_tracker (hphase.trans ha) hu
  obtain ⟨-, hkeep⟩ := hpressed c htrk
  obtain ⟨hutrk, huev⟩ := hkeep hfresh
  refine ⟨t, u, ht, hu, ?_, hutrk⟩
  rw [huev, htev, hs, completionEvents, if_pos rfl]

/-- Settles O39, one lemma for each order: `exec_tick_then_pulse` and `exec_pulse_then_tick`. Only the first needs the
deadline to have passed. -/
theorem simultaneousRequestsEitherOrder : Obligations.SimultaneousRequestsEitherOrder :=
  fun _ _ _ _ hc hs hlt => ⟨exec_tick_then_pulse hc hs hlt, exec_pulse_then_tick hc hs⟩

end Sys2Proof.Proofs
end

section
/-! # Each operation has one word, and each word one meaning

The round trips of the decoder over words and over stored bytes, and the fields that are an operation's (R71, R72, R74). -/

open Sys2Proof Sys2Proof.Machine

namespace Sys2Proof.Proofs

/-! ## Stored bytes (R71) -/

/-- The eight bytes of a word, put together again, are the word. -/
theorem decodeBytes_bytesOfWord_append (w : Word) (rest : List Byte) :
    decodeBytes (bytesOfWord w ++ rest) = (decodeWord w).map fun i => (i, rest) := by
  have hw : wordOfBytes (w.extractLsb' 56 8) (w.extractLsb' 48 8) (w.extractLsb' 40 8) (w.extractLsb' 32 8)
      (w.extractLsb' 24 8) (w.extractLsb' 16 8) (w.extractLsb' 8 8) (w.extractLsb' 0 8) = w := by
    simp only [wordOfBytes, BitVec.extractLsb'_append_extractLsb'_eq_extractLsb', BitVec.extractLsb'_eq_self]
  simp only [bytesOfWord, List.cons_append, List.nil_append, decodeBytes, hw]
  cases decodeWord w <;> rfl

/-- Eight bytes are the stored form of the word they make. -/
theorem bytesOfWord_wordOfBytes (b7 b6 b5 b4 b3 b2 b1 b0 : Byte) :
    bytesOfWord (wordOfBytes b7 b6 b5 b4 b3 b2 b1 b0) = [b7, b6, b5, b4, b3, b2, b1, b0] := by
  have hbyte (k : Nat) (b : Byte) (h : (wordOfBytes b7 b6 b5 b4 b3 b2 b1 b0).toNat / 2 ^ k % 2 ^ 8 = b.toNat) :
      (wordOfBytes b7 b6 b5 b4 b3 b2 b1 b0).extractLsb' k 8 = b :=
    BitVec.eq_of_toNat_eq (by rw [BitVec.extractLsb'_toNat, Nat.shiftRight_eq_div_pow, h])
  rw [wordOfBytes_toNat] at hbyte
  have h7 := b7.isLt
  have h6 := b6.isLt
  have h5 := b5.isLt
  have h4 := b4.isLt
  have h3 := b3.isLt
  have h2 := b2.isLt
  have h1 := b1.isLt
  have h0 := b0.isLt
  rw [bytesOfWord, hbyte 56 b7 (by omega), hbyte 48 b6 (by omega), hbyte 40 b5 (by omega), hbyte 32 b4 (by omega),
    hbyte 24 b3 (by omega), hbyte 16 b2 (by omega), hbyte 8 b1 (by omega), hbyte 0 b0 (by omega)]

/-- Bytes that decode begin with the stored form of a word that decodes. -/
theorem decodeBytes_eq_ok {bs rest : List Byte} {i : Instr} (h : decodeBytes bs = .ok (i, rest)) :
    ∃ w, decodeWord w = .ok i ∧ bs = bytesOfWord w ++ rest := by
  unfold decodeBytes at h
  split at h
  case h_1 b7 b6 b5 b4 b3 b2 b1 b0 tail =>
    split at h
    case h_1 j hd =>
      cases h
      exact ⟨_, hd, by rw [bytesOfWord_wordOfBytes]; rfl⟩
    case h_2 => cases h
  case h_2 => cases h

/-- Settles O5: the word's fields are cut out as they were put together (`decodeWord_encodeWord`), and its eight bytes make
the word again (`decodeBytes_bytesOfWord_append`). -/
theorem decodeEncodeAllOperations : Obligations.DecodeEncodeAllOperations := by
  refine fun i rest => ⟨decodeWord_encodeWord i, ?_⟩
  rw [encode, decodeBytes_bytesOfWord_append, decodeWord_encodeWord]
  rfl

/-- Settles O6: a word that decodes is an encoding (`eq_encodeWord_of_decodeWord`), and bytes that decode begin with the
stored form of such a word (`decodeBytes_eq_ok`). -/
theorem decodedWordIsItsEncoding : Obligations.DecodedWordIsItsEncoding := by
  refine ⟨fun w i h => (eq_encodeWord_of_decodeWord h).symm, fun bs rest i h => ?_⟩
  obtain ⟨w, hd, rfl⟩ := decodeBytes_eq_ok h
  rw [encode, ← eq_encodeWord_of_decodeWord hd]

/-! ## Well-formed fields (R72) -/

theorem wf_fieldsOf (i : Instr) : (fieldsOf i).wf = true := by
  cases i with
  | attach p => cases p <;> rfl
  | _ => rfl

/-- R72's three conditions, in words of the fields. -/
theorem wf_iff {o : OpAB} : o.wf = true ↔
    o.opcode ∈ [0x01#8, 0x02#8, 0x03#8, 0x04#8, 0x05#8, 0x10#8, 0x11#8, 0x12#8, 0x13#8] ∧
      (o.opcode = 0x03#8 ∨ o.a = 0) ∧
      (o.opcode ∈ [0x03#8, 0x05#8, 0x13#8] ∨ o.b = 0 ∨ (o.opcode = 0x01#8 ∧ o.b = 1)) := by
  simp only [OpAB.wf, OpAB.opcodeListed, OpAB.aAllowed, OpAB.bAllowed, Bool.and_eq_true, Bool.or_eq_true,
    List.contains_iff_mem, beq_iff_eq, and_assoc, or_assoc]
  rfl

/-- Fields that pass R72's conditions decode: each listed opcode finds the operands its row of the opcode map asks for. -/
theorem exists_decodeFields_of_wf {o : OpAB} (h : o.wf = true) : ∃ i, decodeFields o = .ok i := by
  obtain ⟨op, a, b⟩ := o
  obtain ⟨hop, ha, hb⟩ := wf_iff.mp h
  simp only [List.mem_cons, List.not_mem_nil, or_false] at hop
  rcases hop with rfl | rfl | rfl | rfl | rfl | rfl | rfl | rfl | rfl
  · have hbit : b.toNat ≤ 1 := by
      have hb' : b = 0 ∨ b = 1 := by simpa using hb
      rcases hb' with rfl | rfl
      · decide
      · decide
    exact ⟨_, attachOf_eq_ok_iff.mpr ⟨by simpa using ha, hbit, rfl⟩⟩
  · exact ⟨.detach, bare_eq_ok_iff.mpr ⟨by simpa using ha, by simpa using hb, rfl⟩⟩
  · exact ⟨.pulse a b, rfl⟩
  · exact ⟨.tick, bare_eq_ok_iff.mpr ⟨by simpa using ha, by simpa using hb, rfl⟩⟩
  · exact ⟨.advance b, withB_eq_ok_iff.mpr ⟨by simpa using ha, rfl⟩⟩
  · exact ⟨.rdcmd, bare_eq_ok_iff.mpr ⟨by simpa using ha, by simpa using hb, rfl⟩⟩
  · exact ⟨.rdhex, bare_eq_ok_iff.mpr ⟨by simpa using ha, by simpa using hb, rfl⟩⟩
  · exact ⟨.takenew, bare_eq_ok_iff.mpr ⟨by simpa using ha, by simpa using hb, rfl⟩⟩
  · exact ⟨.cmdid b, withB_eq_ok_iff.mpr ⟨by simpa using ha, rfl⟩⟩

/-- Settles O7: well-formed fields decode (`exists_decodeFields_of_wf`), to the operation whose fields they are
(`eq_fieldsOf_of_decodeFields`), and the fields of an operation are well-formed (`wf_fieldsOf`). -/
theorem wellFormedFieldsAreOperations : Obligations.WellFormedFieldsAreOperations := by
  refine fun o => ⟨fun h => ?_, ?_⟩
  · obtain ⟨i, hi⟩ := exists_decodeFields_of_wf h
    exact ⟨i, hi, (eq_fieldsOf_of_decodeFields hi).symm⟩
  · rintro ⟨i, -, rfl⟩
    exact wf_fieldsOf i

/-- Settles O8: six closed words, each run through the decoder. -/
theorem sampleWordsDecode : Obligations.SampleWordsDecode :=
  ⟨by decide, by decide, by decide, by decide, by decide, by decide⟩

end Sys2Proof.Proofs
end

section
/-! # What an operation can do

One inversion lemma over all nine operations: the next state is the old one with the fields of one of these moves written.
The invariants of the state and the moves of the frame's count are read off it. -/

open Sys2Proof Sys2Proof.Machine

namespace Sys2Proof.Proofs

variable {s t : State} {i : Instr}

/-- The moves of the machine, each with the operation that makes it and what it writes. -/
inductive Move (s : State) : Instr → State → Prop
  /-- Ignored, or without effect. -/
  | stay (i : Instr) : Move s i s
  /-- `ATTACH` (R191). -/
  | attach (p : Protocol) (hun : s.phase = .unattached) :
      Move s (.attach p) { s with protocol := p, phase := .attached }
  /-- `DETACH` (R192). -/
  | detach (ha : s.phase = .attached) : Move s .detach { s with phase := .detached }
  /-- `TICK` past the deadline (R160). -/
  | release (ha : s.phase = .attached) (hv : s.activeValid = true) :
      Move s .tick { s with
        activeValid := false, activeCommand := 0, events := s.events ++ [.buttonReleased s.activeCommand] }
  /-- `ADVANCE` (R193). -/
  | advance (d : Operand) : Move s (.advance d) { s with now := s.now + d.toNat }
  /-- The accessors that only read (R170, R171, R173). -/
  | answer (i : Instr) (r : Response) (hi : i = .rdcmd ∨ i = .rdhex ∨ ∃ b, i = .cmdid b) :
      Move s i { s with returns := s.returns ++ [r] }
  /-- `TAKENEW` (R172). -/
  | takenew : Move s .takenew { s with
      hasUnreadDatagram := false, returns := s.returns ++ [.newDatagram s.hasUnreadDatagram] }
  /-- A long duration (R104, R107, R143). -/
  | endFrame (m sp : Duration) (dl : Nat) (ha : s.phase = .attached) (hd : dataBit (m, sp) = none) :
      Move s (.pulse m sp) { s with bitsReceived := 0, repeatDeadline := dl }
  /-- Quirk recovery (R123). -/
  | quirk (m sp : Duration) (ha : s.phase = .attached) (hd : dataBit (m, sp) = some true)
      (hlt : s.bitsReceived.val < 8) (hp : s.protocol = .zeroAddressVariant) :
      Move s (.pulse m sp) { s with bitsReceived := 9, highWord := 1 }
  /-- A bit of positions 1 to 16 (R122). -/
  | high (m sp : Duration) (b : Bool) (n : FramePos) (ha : s.phase = .attached) (hd : dataBit (m, sp) = some b)
      (hlt : s.bitsReceived.val < 16) (hn : n.val = s.bitsReceived.val + 1)
      (hq : ¬(s.bitsReceived.val < 8 ∧ s.protocol = .zeroAddressVariant ∧ b = true)) :
      Move s (.pulse m sp) { s with bitsReceived := n, highWord := shiftIn s.highWord b }
  /-- A bit of positions 17 to 31 (R122). -/
  | low (m sp : Duration) (b : Bool) (n : FramePos) (ha : s.phase = .attached) (hd : dataBit (m, sp) = some b)
      (hge : 16 ≤ s.bitsReceived.val) (hlt : s.bitsReceived.val < 31) (hn : n.val = s.bitsReceived.val + 1) :
      Move s (.pulse m sp) { s with bitsReceived := n, lowWord := shiftIn s.lowWord b }
  /-- The 32nd bit (R124, R141). -/
  | complete (m sp : Duration) (b : Bool) (c : CommandId) (ha : s.phase = .attached) (hd : dataBit (m, sp) = some b)
      (h31 : s.bitsReceived.val = 31) :
      Move s (.pulse m sp) { s with
        bitsReceived := 32, lowWord := shiftIn s.lowWord b,
        addressField := s.highWord, commandField := shiftIn s.lowWord b,
        hasUnreadDatagram := true, datagramSeen := true,
        activeValid := true, activeCommand := c, repeatDeadline := s.now + 120,
        events := s.events ++ completionEvents (tracker s) c }

/-- `PULSE` while attached, by the data bit it carries and the branch of the assembler that takes it (R101, R121). -/
theorem pulse_move (ha : s.phase = .attached) {m sp : Duration} (he : exec (.pulse m sp) s = .next t) :
    Move s (.pulse m sp) t := by
  rcases hd : dataBit (m, sp) with _ | b
  · rw [longDurationsResynchronise s m sp ha (dataBit_eq_none_iff.mp hd)] at he
    cases he
    exact .endFrame m sp _ ha hd
  · rcases appendBit_cases b s with ⟨-, h⟩ | ⟨hlt, hp, rfl, h⟩ | ⟨hlt, hq, h⟩ | ⟨hge, hlt, h⟩ | ⟨h31, -⟩
    · rw [exec_pulse_of_incomplete ha hd h] at he
      cases he
      exact .stay _
    · rw [exec_pulse_of_incomplete ha hd h] at he
      cases he
      exact .quirk m sp ha hd hlt hp
    · rw [exec_pulse_of_incomplete ha hd h] at he
      cases he
      exact .high m sp b _ ha hd hlt (nextPos_val_of_lt (by omega)) hq
    · rw [exec_pulse_of_incomplete ha hd h] at he
      cases he
      exact .low m sp b _ ha hd hge hlt (nextPos_val_of_lt (by omega))
    · rw [completingBitPublishesDatagram s m sp b _ ha h31 hd rfl, ← shiftIn_eq_sourceShift] at he
      cases he
      exact .complete m sp b _ ha hd h31

/-- What an operation does is one of the moves. -/
theorem exec_move (he : exec i s = .next t) : Move s i t := by
  cases i with
  | attach p =>
    cases he
    rcases attach_cases p s with ⟨hun, h⟩ | ⟨-, h⟩
    · rw [h]
      exact .attach p hun
    · rw [h]
      exact .stay _
  | detach =>
    by_cases ha : s.phase = .attached
    · rw [exec_detach, whenAttached_of_attached ha] at he
      cases he
      exact .detach ha
    · rw [exec_detach_of_not_attached ha] at he
      cases he
      exact .stay _
  | pulse m sp =>
    by_cases ha : s.phase = .attached
    · exact pulse_move ha he
    · rw [exec_pulse_of_not_attached ha] at he
      cases he
      exact .stay _
  | tick =>
    by_cases ha : s.phase = .attached
    · rw [exec_tick, whenAttached_of_attached ha] at he
      cases he
      rcases monitorCheck_cases s with ⟨hv, -, h⟩ | ⟨-, h⟩
      · rw [h]
        exact .release ha hv
      · rw [h]
        exact .stay _
    · rw [exec_tick_of_not_attached ha] at he
      cases he
      exact .stay _
  | advance d => cases he; exact .advance d
  | rdcmd => cases he; exact .answer _ _ (.inl rfl)
  | rdhex => cases he; exact .answer _ _ (.inr (.inl rfl))
  | takenew => cases he; exact .takenew
  | cmdid b => cases he; exact .answer _ _ (.inr (.inr ⟨b, rfl⟩))

/-! ## The invariants of R33 -/

/-- Each move writes fields of R33's list only together with those they are tied to; while attached the last clause asks
nothing. -/
theorem exec_keeps_reachableInv (i : Instr) (s t : State) (h : ReachableInv s) (he : exec i s = .next t) :
    ReachableInv t := by
  obtain ⟨hnone, hunseen, hunread, hactive, hreset⟩ := h
  cases exec_move he with
  | stay => exact ⟨hnone, hunseen, hunread, hactive, hreset⟩
  | attach p hun => exact ⟨hnone, hunseen, hunread, hactive, nofun⟩
  | detach ha => exact ⟨hnone, hunseen, hunread, hactive, nofun⟩
  | release ha hv =>
    refine ⟨fun _ => rfl, fun hn => ?_, hunread, nofun, fun hun => ?_⟩
    · obtain ⟨haddr, hcmd, hread, -⟩ := hunseen hn
      exact ⟨haddr, hcmd, hread, rfl⟩
    · simp [ha] at hun
  | advance d => exact ⟨hnone, hunseen, hunread, hactive, hreset⟩
  | answer i r hi => exact ⟨hnone, hunseen, hunread, hactive, hreset⟩
  | takenew =>
    refine ⟨hnone, fun hn => ?_, nofun, hactive, fun hun => ?_⟩
    · obtain ⟨haddr, hcmd, -, hidle⟩ := hunseen hn
      exact ⟨haddr, hcmd, rfl, hidle⟩
    · obtain ⟨hrecv, htrk⟩ := hreset hun
      exact ⟨by rw [hrecv]; rfl, htrk⟩
  | endFrame m sp dl ha hd => exact ⟨hnone, hunseen, hunread, hactive, fun hun => by simp [ha] at hun⟩
  | quirk m sp ha hd hlt hp => exact ⟨hnone, hunseen, hunread, hactive, fun hun => by simp [ha] at hun⟩
  | high m sp b n ha hd hlt hn hq => exact ⟨hnone, hunseen, hunread, hactive, fun hun => by simp [ha] at hun⟩
  | low m sp b n ha hd hge hlt hn => exact ⟨hnone, hunseen, hunread, hactive, fun hun => by simp [ha] at hun⟩
  | complete m sp b c ha hd h31 => exact ⟨nofun, nofun, fun _ => rfl, fun _ => rfl, fun hun => by simp [ha] at hun⟩

/-- Settles O11: every operation keeps the invariants (`exec_keeps_reachableInv`), and taking a word off the stimulus touches
none of their fields (`step_invariant`). -/
theorem stepKeepsReachableInvariants : Obligations.StepKeepsReachableInvariants :=
  fun _ _ hs h => step_invariant exec_keeps_reachableInv (fun _ _ hp => hp) hs h

/-! ## Presses and releases alternate (R144, R146) -/

/-- Reading a longer stream goes on from where the shorter one led. -/
theorem replay_append {es new : List Event} {a : Option CommandId} (h : replay es = some a) :
    replay (es ++ new) = new.foldlM trackEvent a := by
  rw [replay] at h ⊢
  rw [List.foldlM_append, h]
  rfl

/-- From the tracker's state before it, a completion's events lead to its command (R141). -/
theorem foldlM_trackEvent_completionEvents (a : Option CommandId) (c : CommandId) :
    (completionEvents a c).foldlM trackEvent a = some (some c) := by
  rcases a with _ | o
  · rfl
  · by_cases h : o = c
    · subst h
      rw [completionEvents, if_pos rfl]
      rfl
    · rw [completionEvents, if_neg h]
      simp [trackEvent]

/-- The tracker moves as the events it emits are read (R146). -/
theorem exec_keeps_replay (i : Instr) (s t : State) (h : replay s.events = some (tracker s))
    (he : exec i s = .next t) : replay t.events = some (tracker t) := by
  rcases exec_tracker_cases he with ⟨m, sp, c, -, -, htrk, hev⟩ | ⟨c, -, hs, htrk, hev⟩ | ⟨htrk, hev⟩
  · rw [hev, replay_append h, htrk, foldlM_trackEvent_completionEvents]
  · rw [hev, replay_append h, htrk, hs]
    simp [trackEvent]
  · rw [hev, htrk, h]

/-- Settles O12: a completion's events and a release are moves of R144's machine from the tracker's state
(`exec_keeps_replay`), and taking a word off the stimulus touches neither the stream nor the tracker. -/
theorem stepKeepsPressReleaseAlternation : Obligations.StepKeepsPressReleaseAlternation :=
  fun _ _ hs h => step_invariant (P := fun s => replay s.events = some (tracker s)) exec_keeps_replay
    (fun _ _ hp => hp) hs h

/-! ## The published address byte under `ZeroAddressVariant` (R128) -/

/-- A shift moves the low bits up by one and brings the new bit in below them (R12). -/
theorem shiftIn_mod_two_pow {k : Nat} (hk : k < 16) (w : Half) (b : Bool) :
    (shiftIn w b).toNat % 2 ^ (k + 1) = 2 * (w.toNat % 2 ^ k) + b.toNat := by
  have hbit := Bool.toNat_le b
  rw [shiftIn_toNat, Nat.mod_mod_of_dvd _ (Nat.pow_dvd_pow 2 (by omega : k + 1 ≤ 16)), pow_succ', Nat.mod_mul,
    show (2 * w.toNat + b.toNat) % 2 = b.toNat by omega, show (2 * w.toNat + b.toNat) / 2 = w.toNat by omega, add_comm]

/-- A bit shifted in at position `n` leaves the accumulator as R128 says, when it was so before: up to position 8 only a 0
bit comes here, and after it the bits of positions 1 to 8 move up together. -/
theorem zeroHigh_shiftIn {w : Half} {k : Nat} {b : Bool} (hk : k < 16) (hb : k < 8 → b = false)
    (hlow : k < 8 → w.toNat % 2 ^ k = 0) (hhigh : 8 ≤ k → w.toNat % 2 ^ (min k 16) < 2 ^ (min k 16 - 8)) :
    (k + 1 < 8 → (shiftIn w b).toNat % 2 ^ (k + 1) = 0) ∧
    (8 ≤ k + 1 → (shiftIn w b).toNat % 2 ^ (min (k + 1) 16) < 2 ^ (min (k + 1) 16 - 8)) := by
  have hbit := Bool.toNat_le b
  rw [Nat.min_eq_left (by omega : k + 1 ≤ 16), shiftIn_mod_two_pow hk]
  rw [Nat.min_eq_left (by omega : k ≤ 16)] at hhigh
  rcases Nat.lt_or_ge k 8 with h8 | h8
  · rw [hlow h8, hb h8]
    exact ⟨fun _ => rfl, fun _ => Nat.two_pow_pos _⟩
  · refine ⟨by omega, fun _ => ?_⟩
    have hw := hhigh h8
    rw [show k + 1 - 8 = k - 8 + 1 by omega, pow_succ']
    omega

/-- Every move keeps R128's invariant. Only `ATTACH` selects the protocol, and it finds the reset values, by the invariants of
R33. -/
theorem exec_keeps_zeroAddressInv (i : Instr) (s t : State) (h : ReachableInv s ∧ ZeroAddressInv s)
    (he : exec i s = .next t) : ZeroAddressInv t := by
  obtain ⟨⟨-, -, -, -, hreset⟩, hzero⟩ := h
  cases exec_move he with
  | stay => exact hzero
  | attach p hun =>
    obtain ⟨hrecv, -⟩ := hreset hun
    intro _
    simp only [hrecv]
    decide
  | detach ha => exact hzero
  | release ha hv => exact hzero
  | advance d => exact hzero
  | answer i r hi => exact hzero
  | takenew => exact hzero
  | endFrame m sp dl ha hd => exact fun hp => ⟨(hzero hp).1, fun _ => Nat.mod_one _, nofun⟩
  | quirk m sp ha hd hlt hp => exact fun _ => ⟨(hzero hp).1, nofun, fun _ => (by decide : 1 % 2 ^ 9 < 2 ^ 1)⟩
  | high m sp b n ha hd hlt hn hq =>
    intro hp
    obtain ⟨haddr, hlow, hhigh⟩ := hzero hp
    have hb : s.bitsReceived.val < 8 → b = false := fun h8 => by simpa [h8, show s.protocol = _ from hp] using hq
    simp only [hn]
    exact ⟨haddr, zeroHigh_shiftIn hlt hb hlow hhigh⟩
  | low m sp b n ha hd hge hlt hn =>
    intro hp
    obtain ⟨haddr, -, hhigh⟩ := hzero hp
    rw [Nat.min_eq_right hge] at hhigh
    simp only [hn]
    rw [Nat.min_eq_right (by omega)]
    exact ⟨haddr, by omega, fun _ => hhigh (by omega)⟩
  | complete m sp b c ha hd h31 =>
    intro hp
    obtain ⟨-, -, hhigh⟩ := hzero hp
    have hbyte : s.highWord.toNat < 256 := by
      have hw := s.highWord.isLt
      simpa [h31, Nat.mod_eq_of_lt hw] using hhigh (by omega)
    refine ⟨hbyte, nofun, fun _ => ?_⟩
    exact Nat.lt_of_le_of_lt (Nat.mod_le _ _) hbyte

/-- Settles O13: every operation keeps the invariant together with those of R33 (`exec_keeps_zeroAddressInv`,
`exec_keeps_reachableInv`), and taking a word off the stimulus touches no field of either. -/
theorem stepKeepsZeroAddressByte : Obligations.StepKeepsZeroAddressByte := fun _ _ hs hz h =>
  (step_invariant (P := fun s => ReachableInv s ∧ ZeroAddressInv s)
    (fun i s t hp he => ⟨exec_keeps_reachableInv i s t hp.1 he, exec_keeps_zeroAddressInv i s t hp he⟩)
    (fun _ _ hp => hp) ⟨hs, hz⟩ h).2

/-- Settles O10: at reset the block is idle with every count and field 0, and nothing has been emitted. -/
theorem invariantsHoldAtReset : Obligations.InvariantsHoldAtReset :=
  fun _ => ⟨⟨fun _ => rfl, fun _ => ⟨rfl, rfl, rfl, rfl⟩, nofun, nofun, fun _ => ⟨rfl, rfl⟩⟩, nofun, rfl⟩

/-! ## The frame's count (R24) -/

theorem datagramReceived_mem_completionEvents (a : Option CommandId) (c : CommandId) :
    Event.datagramReceived ∈ completionEvents a c := by
  rcases a with _ | o
  · simp [completionEvents]
  · by_cases h : o = c
    · simp [completionEvents, h]
    · simp [completionEvents, h]

/-- A move that emits nothing and does not take the count from 31 to 32 receives no datagram, and the count says so. -/
theorem datagramReceived_iff_of_events_eq (hev : t.events = s.events)
    (hcount : ¬(s.bitsReceived.val = 31 ∧ t.bitsReceived.val = 32)) :
    Event.datagramReceived ∈ t.events.drop s.events.length ↔ s.bitsReceived.val = 31 ∧ t.bitsReceived.val = 32 := by
  simp [hev, hcount]

/-- Settles O19: the count moves with the four moves of a pulse that write it, and of these only the completion reaches 32
and emits; the one other event is the monitor's release. -/
theorem countMovesWithinFrame : Obligations.CountMovesWithinFrame := by
  intro i s t he
  cases exec_move he with
  | stay => exact ⟨.inl rfl, datagramReceived_iff_of_events_eq rfl (by omega)⟩
  | attach p hun => exact ⟨.inl rfl, datagramReceived_iff_of_events_eq rfl (by simp; omega)⟩
  | detach ha => exact ⟨.inl rfl, datagramReceived_iff_of_events_eq rfl (by simp; omega)⟩
  | release ha hv => exact ⟨.inl rfl, by simp; omega⟩
  | advance d => exact ⟨.inl rfl, datagramReceived_iff_of_events_eq rfl (by simp; omega)⟩
  | answer i r hi => exact ⟨.inl rfl, datagramReceived_iff_of_events_eq rfl (by simp; omega)⟩
  | takenew => exact ⟨.inl rfl, datagramReceived_iff_of_events_eq rfl (by simp; omega)⟩
  | endFrame m sp dl ha hd =>
    exact ⟨.inr (.inr (.inr ⟨⟨m, sp, rfl, hd⟩, rfl⟩)), datagramReceived_iff_of_events_eq rfl (by simp)⟩
  | quirk m sp ha hd hlt hp =>
    exact ⟨.inr (.inr (.inl ⟨⟨m, sp, rfl, hd⟩, rfl, hlt, hp⟩)), datagramReceived_iff_of_events_eq rfl (by simp)⟩
  | high m sp b n ha hd hlt hn hq =>
    exact ⟨.inr (.inl ⟨⟨m, sp, b, rfl, hd⟩, hn⟩), datagramReceived_iff_of_events_eq rfl (by simp; omega)⟩
  | low m sp b n ha hd hge hlt hn =>
    exact ⟨.inr (.inl ⟨⟨m, sp, b, rfl, hd⟩, hn⟩), datagramReceived_iff_of_events_eq rfl (by simp; omega)⟩
  | complete m sp b c ha hd h31 =>
    refine ⟨.inr (.inl ⟨⟨m, sp, b, rfl, hd⟩, by rw [h31]; rfl⟩), ?_⟩
    simp [h31, datagramReceived_mem_completionEvents]

end Sys2Proof.Proofs
end

section
/-! # Who writes what, and what it is made from

The ownership table of R222, both halves; the life of IRDEC, time and the event stream over a run; and the requests that
change nothing (R190, R199, R216, R222). -/

open Sys2Proof Sys2Proof.Machine

namespace Sys2Proof.Proofs

variable {s t : State} {i : Instr} {is : List Instr}

/-! ## Steps and requests that are ignored -/

/-- Settles O1, by the definition of `step` on a word that decodes. -/
theorem stepAppliesDecodedOperation : Obligations.StepAppliesDecodedOperation := by
  intro s w rest i hs hd
  simp [step, fetch, hs, hd]

theorem core_run_succ (h : step s = .next t) (k : Nat) : Host.Core.run core (k + 1) s = Host.Core.run core k t := by
  simp only [Host.Core.run, core, h]

/-- Settles O2: one step idles, and so, by induction, does any number of them. -/
theorem emptyStimulusIdles : Obligations.EmptyStimulusIdles := by
  intro s k hs
  have hstep : step s = .next s := by simp [step, fetch, hs]
  refine ⟨hstep, ?_⟩
  induction k with
  | zero => rfl
  | succ k ih => exact (core_run_succ hstep k).trans ih

/-- Settles O18: no handler runs, and the assembler's guard leaves the state as it is (`appendBit_full`). -/
theorem bitsAfterCompletionIgnored : Obligations.BitsAfterCompletionIgnored :=
  fun _ _ _ _ ha h32 hd => exec_pulse_of_incomplete ha hd (appendBit_full h32)

/-- Settles O32, one lemma for each of the two operations. -/
theorem captureAndMonitorIgnoredUnlessAttached : Obligations.CaptureAndMonitorIgnoredUnlessAttached :=
  fun _ m sp h => ⟨exec_pulse_of_not_attached h m sp, exec_tick_of_not_attached h⟩

/-! ## Writing (R222) -/

/-- Settles O36, move by move: each writes the fields that its own record names, and they are its party's. -/
theorem writesFollowOwnership : Obligations.WritesFollowOwnership := by
  intro i s t he
  cases exec_move he with
  | stay => simp +contextual
  | attach p hun => simp
  | detach ha => simp
  | release ha hv => simp
  | advance d => simp
  | answer i r hi => simp +contextual
  | takenew => simp
  | endFrame m sp dl ha hd => simp
  | quirk m sp ha hd hlt hp => simp
  | high m sp b n ha hd hlt hn hq => simp
  | low m sp b n ha hd hge hlt hn => simp
  | complete m sp b c ha hd h31 => simp

/-- Settles O33: of the moves only `ATTACH`'s and `DETACH`'s write either field. -/
theorem phaseAndProtocolMoveOnlyByHost : Obligations.PhaseAndProtocolMoveOnlyByHost := by
  intro i s t he
  cases exec_move he with
  | attach p hun => exact .inr (.inl ⟨p, rfl, hun, rfl, rfl⟩)
  | detach ha => exact .inr (.inr ⟨rfl, ha, rfl, rfl⟩)
  | _ => exact .inl ⟨rfl, rfl⟩

/-! ## Reading (R222) -/

/-- What `PULSE` writes is a function of what the capture context may read: the branch of the assembler, and what the branch
writes, are both settled by it. -/
theorem exec_pulse_reads (m sp : Duration) (view : CaptureView) :
    ∃ (count : FramePos) (high low : Half) (published : Option (Half × Half)) (active : Bool) (cmd : CommandId)
        (deadline : Option Nat) (new : List Event),
      ∀ s : State, captureView s = view → exec (.pulse m sp) s = .next { s with
        bitsReceived := count, highWord := high, lowWord := low,
        addressField := (published.map Prod.fst).getD s.addressField,
        commandField := (published.map Prod.snd).getD s.commandField,
        hasUnreadDatagram := published.isSome || s.hasUnreadDatagram,
        datagramSeen := published.isSome || s.datagramSeen,
        activeValid := active, activeCommand := cmd,
        repeatDeadline := deadline.getD s.repeatDeadline, events := s.events ++ new } := by
  by_cases ha : view.phase = .attached
  case neg =>
    refine ⟨view.bitsReceived, view.highWord, view.lowWord, none, view.activeValid, view.activeCommand, none, [], ?_⟩
    rintro s rfl
    rw [exec_pulse_of_not_attached ha]
    simp [captureView]
  rcases hd : dataBit (m, sp) with _ | b
  · refine ⟨0, view.highWord, view.lowWord, none, view.activeValid, view.activeCommand,
      if m.toNat + sp.toNat < 12500 then some (view.now + 120) else none, [], ?_⟩
    rintro s rfl
    rw [longDurationsResynchronise s m sp ha (dataBit_eq_none_iff.mp hd)]
    split
    · simp [captureView]
    · simp [captureView]
  by_cases h32 : view.bitsReceived.val = 32
  · refine ⟨view.bitsReceived, view.highWord, view.lowWord, none, view.activeValid, view.activeCommand, none, [], ?_⟩
    rintro s rfl
    rw [exec_pulse_of_incomplete ha hd (appendBit_full h32)]
    simp [captureView]
  by_cases hq : view.bitsReceived.val < 8 ∧ view.protocol = .zeroAddressVariant ∧ b = true
  · obtain ⟨hlt, hp, rfl⟩ := hq
    refine ⟨9, 1, view.lowWord, none, view.activeValid, view.activeCommand, none, [], ?_⟩
    rintro s rfl
    rw [exec_pulse_of_incomplete ha hd (appendBit_quirk hlt hp)]
    simp [captureView, quirkRecover, Config.quirkResume]
  by_cases h16 : view.bitsReceived.val < 16
  · refine ⟨nextPos view.bitsReceived, shiftIn view.highWord b, view.lowWord, none, view.activeValid,
      view.activeCommand, none, [], ?_⟩
    rintro s rfl
    rw [exec_pulse_of_incomplete ha hd (appendBit_high h16 hq)]
    simp [captureView, placeHigh]
  by_cases h31 : view.bitsReceived.val < 31
  · refine ⟨nextPos view.bitsReceived, view.highWord, shiftIn view.lowWord b, none, view.activeValid,
      view.activeCommand, none, [], ?_⟩
    rintro s rfl
    rw [exec_pulse_of_incomplete ha hd (appendBit_low (Nat.not_lt.mp h16) h31)]
    simp [captureView, placeLow]
  · have hlast : view.bitsReceived.val = 31 := by omega
    refine ⟨32, view.highWord, sourceShift view.lowWord b, some (view.highWord, sourceShift view.lowWord b), true,
      ((sourceShift view.lowWord b) >>> 8).setWidth 8, some (view.now + 120),
      completionEvents (if view.activeValid then some view.activeCommand else none)
        (((sourceShift view.lowWord b) >>> 8).setWidth 8), ?_⟩
    rintro s rfl
    exact completingBitPublishesDatagram s m sp b _ ha hlast hd rfl

/-- What `TICK` writes is a function of what the monitor task may read. -/
theorem exec_tick_reads (view : MonitorView) : ∃ (active : Bool) (cmd : CommandId) (new : List Event),
    ∀ s : State, monitorView s = view →
      exec .tick s = .next { s with activeValid := active, activeCommand := cmd, events := s.events ++ new } := by
  by_cases h : view.phase = .attached ∧ view.activeValid = true ∧ view.repeatDeadline < view.now
  · refine ⟨false, 0, [.buttonReleased view.activeCommand], ?_⟩
    rintro s rfl
    obtain ⟨ha, hv, hlt⟩ := h
    obtain ⟨hrelease, -⟩ := tickReleasesPastDeadline s
    exact hrelease ha hv hlt
  · refine ⟨view.activeValid, view.activeCommand, [], ?_⟩
    rintro s rfl
    obtain ⟨-, hnothing⟩ := tickReleasesPastDeadline s
    rw [hnothing (by simpa only [monitorView, not_and_or, Bool.not_eq_true, Nat.not_lt] using h)]
    simp [monitorView]

/-- What `ATTACH` writes is a function of the phase. -/
theorem exec_attach_reads (p : Protocol) (ph : Phase) : ∃ (selected : Option Protocol) (ph' : Phase),
    ∀ s : State, s.phase = ph →
      exec (.attach p) s = .next { s with protocol := selected.getD s.protocol, phase := ph' } := by
  by_cases h : ph = .unattached
  · refine ⟨some p, .attached, ?_⟩
    rintro s rfl
    obtain ⟨hselects, -⟩ := attachSelectsProtocolOnce s p
    exact hselects h
  · refine ⟨none, ph, ?_⟩
    rintro s rfl
    obtain ⟨-, hignored⟩ := attachSelectsProtocolOnce s p
    exact hignored h

/-- What `DETACH` writes is a function of the phase. -/
theorem exec_detach_reads (ph : Phase) : ∃ ph' : Phase, ∀ s : State, s.phase = ph →
    exec .detach s = .next { s with phase := ph' } := by
  by_cases h : ph = .attached
  · refine ⟨.detached, ?_⟩
    rintro s rfl
    rw [exec_detach, whenAttached_of_attached h]
    rfl
  · refine ⟨ph, ?_⟩
    intro s hs
    subst hs
    exact exec_detach_of_not_attached h

/-- Settles O37, party by party: `exec_pulse_reads` and `exec_tick_reads`, the accessors' own equations, `exec_attach_reads`
and `exec_detach_reads`. -/
theorem readsFollowOwnership : Obligations.ReadsFollowOwnership := by
  refine ⟨exec_pulse_reads, exec_tick_reads, fun c seen => ?rdcmd, fun a c => ?rdhex, fun unread => ?takenew,
    fun b => ?cmdid, exec_attach_reads, exec_detach_reads⟩
  case rdcmd =>
    refine ⟨.lastCommand (if seen then some (commandIdOf c) else none), ?_⟩
    rintro s rfl rfl
    exact exec_rdcmd s
  case rdhex =>
    refine ⟨.hexString (hexField a ++ hexField c), ?_⟩
    rintro s rfl rfl
    exact exec_rdhex s
  case takenew =>
    refine ⟨false, .newDatagram unread, ?_⟩
    rintro s rfl
    exact exec_takenew s
  case cmdid => exact ⟨.commandOf (Config.buttonTable b), fun s => exec_cmdid b s⟩

/-! ## Over a run -/

/-- Every run completes (R210). -/
theorem exists_runOps_next (is : List Instr) (s : State) : ∃ t, runOps is s = .next t := by
  induction is generalizing s with
  | nil => exact ⟨s, rfl⟩
  | cons i is ih =>
    obtain ⟨u, he⟩ := exists_exec_next i s
    obtain ⟨t, hrun⟩ := ih u
    exact ⟨t, (runOps_cons he).trans hrun⟩

/-- A reflexive and transitive relation that holds across each operation of a run holds across the run. -/
theorem runOps_relates {R : State → State → Prop} (hrefl : ∀ s, R s s) (htrans : ∀ {s t u}, R s t → R t u → R s u)
    (hstep : ∀ i ∈ is, ∀ s t, exec i s = .next t → R s t) (hrun : runOps is s = .next t) : R s t := by
  induction is generalizing s with
  | nil =>
    cases hrun
    exact hrefl _
  | cons i is ih =>
    obtain ⟨u, he⟩ := exists_exec_next i s
    rw [runOps_cons he] at hrun
    exact htrans (hstep i List.mem_cons_self s u he)
      (ih (fun j hj => hstep j (List.mem_cons_of_mem i hj)) hrun)

/-! ## Time (R199) -/

theorem exec_now_eq (hi : ∀ d, i ≠ .advance d) (he : exec i s = .next t) : t.now = s.now := by
  cases exec_move he with
  | advance d => exact absurd rfl (hi d)
  | _ => rfl

theorem exec_now_le (he : exec i s = .next t) : s.now ≤ t.now := by
  by_cases hi : ∃ d, i = .advance d
  · obtain ⟨d, rfl⟩ := hi
    cases he
    exact Nat.le_add_right _ _
  · exact (exec_now_eq (not_exists.mp hi) he).ge

/-- Settles O34: each operation moves time forwards or not at all (`exec_now_le`), and only `ADVANCE` moves it
(`exec_now_eq`); both relations are reflexive and transitive, so they hold across a run. -/
theorem timeMovesOnlyByAdvance : Obligations.TimeMovesOnlyByAdvance := by
  refine fun ops s t hrun => ⟨?_, fun hno => ?_⟩
  · exact runOps_relates (R := fun s t => s.now ≤ t.now) (fun _ => le_rfl) le_trans (fun _ _ _ _ => exec_now_le) hrun
  · refine runOps_relates (R := fun s t => t.now = s.now) (fun _ => rfl) (fun h h' => h'.trans h) ?_ hrun
    exact fun i hi s t he => exec_now_eq (fun d hd => hno d (hd ▸ hi)) he

/-! ## Silence unless attached (R190, R242) -/

/-- From `s` to `t` nothing is emitted and the block keeps its values, but for an unread flag that may have been cleared. -/
def Unmoved (s t : State) : Prop :=
  t.events = s.events ∧ t.phase = s.phase ∧ t.toButtonTrackerState = s.toButtonTrackerState ∧
    t.toReceiverState = { s.toReceiverState with hasUnreadDatagram := t.hasUnreadDatagram } ∧
    (t.hasUnreadDatagram = true → s.hasUnreadDatagram = true)

theorem Unmoved.refl (s : State) : Unmoved s s :=
  ⟨rfl, rfl, rfl, rfl, id⟩

theorem Unmoved.trans {u : State} (h : Unmoved s t) (h' : Unmoved t u) : Unmoved s u := by
  obtain ⟨hev, hph, htrk, hrecv, hread⟩ := h
  obtain ⟨hev', hph', htrk', hrecv', hread'⟩ := h'
  exact ⟨hev'.trans hev, hph'.trans hph, htrk'.trans htrk, by rw [hrecv', hrecv], hread ∘ hread'⟩

/-- Neither before attachment nor after detachment does an operation other than a first `ATTACH` move the block. -/
theorem exec_unmoved (hs : s.phase = .detached ∨ (s.phase = .unattached ∧ ∀ p, i ≠ .attach p))
    (he : exec i s = .next t) : Unmoved s t := by
  have ha : s.phase ≠ .attached := by
    rcases hs with h | ⟨h, -⟩
    · simp [h]
    · simp [h]
  cases exec_move he with
  | attach p hun =>
    rcases hs with h | ⟨-, h⟩
    · simp [h] at hun
    · exact absurd rfl (h p)
  | stay => exact .refl s
  | advance d => exact ⟨rfl, rfl, rfl, rfl, id⟩
  | answer i r hi => exact ⟨rfl, rfl, rfl, rfl, id⟩
  | takenew => exact ⟨rfl, rfl, rfl, rfl, nofun⟩
  | _ => contradiction

/-- Settles O35: no operation of the run moves the block (`exec_unmoved`), which leaves the phase as the next one needs it. -/
theorem silentUnlessAttached : Obligations.SilentUnlessAttached := by
  intro ops s hs
  obtain ⟨t, hrun⟩ := exists_runOps_next ops s
  refine ⟨t, hrun, ?_⟩
  refine runOps_relates (R := fun s t =>
    (s.phase = .detached ∨ (s.phase = .unattached ∧ ∀ p, .attach p ∉ ops)) → Unmoved s t)
    (fun s _ => .refl s) (fun {s t u} h h' hs => ?trans) (fun i hi s t he hs => ?step) hrun hs
  case trans =>
    have hst : Unmoved s t := h hs
    obtain ⟨-, hph, -⟩ := h hs
    exact hst.trans (h' (by rwa [hph]))
  case step => exact exec_unmoved (hs.imp_right fun ⟨hun, hno⟩ => ⟨hun, fun p hp => hno p (hp ▸ hi)⟩) he

/-! ## The event stream (R216, R217) -/

/-- Settles O38: a completing pulse emits by the tracker's state before it, a `TICK` that releases emits one event, and
nothing else emits (`exec_tracker_cases`). -/
theorem eventsAppendedInOrder : Obligations.EventsAppendedInOrder := by
  intro i s t he
  rcases exec_tracker_cases he with ⟨m, sp, c, rfl, -, -, hev⟩ | ⟨c, rfl, -, -, hev⟩ | ⟨-, hev⟩
  · refine ⟨_, hev, .inr (.inl ⟨⟨m, sp, rfl⟩, ?_⟩)⟩
    rcases tracker s with _ | o
    · exact .inr (.inl ⟨c, rfl⟩)
    · by_cases h : o = c
      · exact .inl (if_pos h)
      · exact .inr (.inr ⟨o, c, h, if_neg h⟩)
  · exact ⟨_, hev, .inr (.inr ⟨rfl, c, rfl⟩)⟩
  · exact ⟨[], by rw [hev, List.append_nil], .inl rfl⟩

/-- A run only appends to the stream (R216). -/
theorem exists_events_append_of_runOps (hrun : runOps is s = .next t) : ∃ new, t.events = s.events ++ new := by
  refine runOps_relates (R := fun s t => ∃ new, t.events = s.events ++ new) (fun s => ?refl) (fun h h' => ?trans)
    (fun i _ s t he => ?step) hrun
  case refl => exact ⟨[], (List.append_nil _).symm⟩
  case trans =>
    obtain ⟨new, hev⟩ := h
    obtain ⟨more, hev'⟩ := h'
    exact ⟨new ++ more, by rw [hev', hev, List.append_assoc]⟩
  case step =>
    obtain ⟨new, hev, -⟩ := eventsAppendedInOrder i s t he
    exact ⟨new, hev⟩

/-- Settles O41: a run appends to the stream (`exists_events_append_of_runOps`), behind the position at which the listener
begins, and filtering goes event by event. -/
theorem listenersReceiveMatchingEvents : Obligations.ListenersReceiveMatchingEvents := by
  intro ops s t l hl hrun
  obtain ⟨new, hev⟩ := exists_events_append_of_runOps hrun
  refine ⟨new, hev, ?_⟩
  rw [received, hev, List.drop_append_of_le_length hl, List.filter_append]
  rfl

end Sys2Proof.Proofs
end

section
/-! # Frames after lost zeros, and the pseudo-operation `FRAME`

Quirk recovery takes the first 1 bit for position 9, and the rest of the frame is one run of data bits (R123, R126); `FRAME`
is a leader and 32 data bits (R84). -/

open Sys2Proof Sys2Proof.Machine

namespace Sys2Proof.Proofs

variable {s t : State} {m sp : Duration} {bs cs : List Bool} {ps qs : List (Duration × Duration)}

/-! ## Quirk recovery (R123, R126) -/

theorem pulses_append (ps qs : List (Duration × Duration)) : pulses (ps ++ qs) = pulses ps ++ pulses qs :=
  List.map_append

theorem pulses_cons (m sp : Duration) (ps : List (Duration × Duration)) :
    pulses ((m, sp) :: ps) = .pulse m sp :: pulses ps :=
  rfl

theorem quirkFree_replicate_false (n : Nat) (s : State) : QuirkFree (List.replicate n false) s :=
  .inr fun _ hb => List.eq_of_mem_replicate (List.mem_of_mem_take hb)

/-- From position 9 on no bit starts quirk recovery (R125). -/
theorem quirkFree_quirkRecover (bs : List Bool) (s : State) : QuirkFree bs (quirkRecover s) :=
  .inr fun _ hb => by simp [quirkRecover, Config.quirkResume] at hb

/-- Reading begins with the value of the first bit. -/
theorem msbFirst_cons (b : Bool) (bs : List Bool) : msbFirst (b :: bs) = b.toNat * 2 ^ bs.length + msbFirst bs := by
  have h := msbFirst_append [b] bs
  simpa [msbFirst] using h

/-- The address that quirk recovery gives: a 1 bit at position 9 with nothing before it, and seven more (R126). -/
theorem foldl_shiftIn_one_seven (h : bs.length = 7) : (bs.foldl shiftIn 1).toNat = msbFirst (true :: bs) := by
  have hlt := msbFirst_lt bs
  rw [h] at hlt
  rw [foldl_shiftIn_toNat, msbFirst_cons, h]
  exact Nat.mod_eq_of_lt (by simp; omega)

/-- Fewer than eight 0 bits fill the accumulator and the 1 bit after them discards it (R123). -/
theorem runOps_pulses_quirk (ha : s.phase = .attached) (h0 : s.bitsReceived = 0) (hp : s.protocol = .zeroAddressVariant)
    {n : Nat} (hn : n < 8) (hps : ps.map dataBit = (List.replicate n false).map some)
    (hd : dataBit (m, sp) = some true) :
    ∃ r : State, runOps (pulses (ps ++ [(m, sp)])) s = .next (quirkRecover r) ∧
      r.phase = .attached ∧ r.events = s.events ∧ tracker r = tracker s ∧
      r.addressField = s.addressField ∧ r.commandField = s.commandField := by
  have hc : s.bitsReceived.val = 0 := by rw [h0]; rfl
  obtain ⟨k, hk, hrun⟩ := runOps_pulses_incomplete ha hps (by rw [List.length_replicate]; omega)
    (quirkFree_replicate_false n s)
  rw [hc, List.length_replicate, Nat.zero_add] at hk
  have hexec := exec_pulse_of_incomplete (s := withBits k (List.replicate n false) s) ha hd
    (appendBit_quirk (show k.val < 8 by omega) hp)
  refine ⟨withBits k (List.replicate n false) s, ?_, ha, rfl, rfl, rfl, rfl⟩
  rw [pulses_append, runOps_append hrun]
  exact runOps_cons hexec

/-- Settles O45: the run up to the 1 bit ends in quirk recovery at position 9 (`runOps_pulses_quirk`), and the 23 bits after it
are a run that reaches position 32 (`runOps_pulses_complete`). Before that nothing is published. -/
theorem quirkFrameAssembles : Obligations.QuirkFrameAssembles := by
  intro s ps k bs ha h0 hp hk1 hk8 hlen hd
  rw [List.map_append, List.map_cons] at hd
  obtain ⟨zeros, tail, rfl, hzeros, htail⟩ := List.map_eq_append_iff.mp hd
  obtain ⟨⟨m, sp⟩, qs, rfl, hone, hbs⟩ := List.map_eq_cons_iff.mp htail
  have hc : s.bitsReceived.val = 0 := by rw [h0]; rfl
  have hzlen : zeros.length = k - 1 := by simpa using congrArg List.length hzeros
  obtain ⟨r, hrun, hra, hrev, hrtrk, hraddr, hrcmd⟩ := runOps_pulses_quirk ha h0 hp (by omega) hzeros hone
  have hsplit : zeros ++ (m, sp) :: qs = (zeros ++ [(m, sp)]) ++ qs := by simp
  rw [hsplit]
  have hra' : (quirkRecover r).phase = .attached := hra
  refine ⟨fun j hj => ?before, ?complete⟩
  case before =>
    rcases Nat.lt_or_ge j k with hjk | hjk
    · have hdj : (zeros.take j).map dataBit = (List.replicate (min j (k - 1)) false).map some := by
        rw [List.map_take, hzeros, ← List.map_take, List.take_replicate]
      obtain ⟨n, -, hrunj⟩ := runOps_pulses_incomplete ha hdj (by rw [List.length_replicate]; omega)
        (quirkFree_replicate_false _ s)
      rw [List.append_assoc, List.take_append_of_le_length (by omega)]
      exact ⟨_, hrunj, rfl, rfl, rfl⟩
    · have hdj : (qs.take (j - k)).map dataBit = (bs.take (j - k)).map some := by
        rw [List.map_take, hbs, List.map_take]
      obtain ⟨n, -, hrunj⟩ := runOps_pulses_incomplete hra' hdj
        (by rw [quirkRecover_bitsReceived, quirkResume_eq, List.length_take]; simp; omega) (quirkFree_quirkRecover _ r)
      rw [List.take_append, List.take_of_length_le (by simp; omega), pulses_append, runOps_append hrun,
        show j - (zeros ++ [(m, sp)]).length = j - k by simp; omega]
      exact ⟨_, hrunj, hrev, hraddr, hrcmd⟩
  case complete =>
    obtain ⟨t, hrunt, h32, -, haddr, hcmd, hev⟩ := runOps_pulses_complete hra' hbs (by simp)
      (by rw [hlen]; rfl) (quirkFree_quirkRecover bs r)
    have hcval : t.commandField.toNat = msbFirst (bs.drop 7) := by
      rw [hcmd]
      exact foldl_shiftIn_sixteen (by rw [List.length_drop, hlen]; rfl) _
    refine ⟨t, ?_, h32, ?_, hcval, ?_⟩
    · rw [pulses_append, runOps_append hrun, hrunt]
    · rw [haddr]
      exact foldl_shiftIn_one_seven (by rw [List.length_take, hlen]; rfl)
    · rw [hev, commandIdOf_of_msbFirst (by rw [List.length_drop, hlen]) hcval, ← hrtrk]
      exact congrArg (· ++ _) hrev

/-! ## `FRAME` (R84) -/

/-- The bits of a byte, `v[7]` first. -/
def byteBits (v : BitVec 8) : List Bool :=
  [7, 6, 5, 4, 3, 2, 1, 0].map v.getLsbD

/-- The mark and the space of `BIT0` and `BIT1`. -/
def bitPair (b : Bool) : Duration × Duration :=
  if b then (500, 1500) else (500, 500)

theorem pulses_bitPairs (bs : List Bool) : pulses (bs.map bitPair) = bs.map bitPulse := by
  rw [pulses, List.map_map]
  refine List.map_congr_left fun b _ => ?_
  cases b <;> rfl

theorem dataBit_bitPair (b : Bool) : dataBit (bitPair b) = some b := by
  cases b <;> rfl

theorem map_dataBit_bitPairs (bs : List Bool) : (bs.map bitPair).map dataBit = bs.map some := by
  rw [List.map_map]
  exact List.map_congr_left fun b _ => dataBit_bitPair b

theorem bytePulses_eq (v : BitVec 8) : bytePulses v = (byteBits v).map bitPulse := by
  rw [bytePulses, byteBits, List.map_map]
  rfl

theorem byteBits_length (v : BitVec 8) : (byteBits v).length = 8 := rfl

/-- A number's lowest `n` bits, most significant first, read back. -/
theorem msbFirst_testBits (x n : Nat) : msbFirst ((List.range n).reverse.map x.testBit) = x % 2 ^ n := by
  induction n with
  | zero => exact (Nat.mod_one x).symm
  | succ n ih =>
    rw [List.range_succ, List.reverse_append, List.reverse_singleton, List.singleton_append, List.map_cons, msbFirst_cons,
      ih, Nat.toNat_testBit, List.length_map, List.length_reverse, List.length_range, Nat.mod_pow_succ, Nat.mul_comm,
      Nat.add_comm]

theorem msbFirst_byteBits (v : BitVec 8) : msbFirst (byteBits v) = v.toNat :=
  (msbFirst_testBits v.toNat 8).trans (Nat.mod_eq_of_lt v.isLt)

/-- The bits of both bytes of a field, most significant first. -/
def halfBits (f : Half) : List Bool :=
  byteBits (f.extractLsb' 8 8) ++ byteBits (f.extractLsb' 0 8)

theorem halfBits_length (f : Half) : (halfBits f).length = 16 := rfl

/-- A field's bits, shifted into an accumulator, leave the field there (R12). -/
theorem foldl_shiftIn_halfBits (f w : Half) : (halfBits f).foldl shiftIn w = f := by
  have hf := f.isLt
  apply BitVec.eq_of_toNat_eq
  rw [foldl_shiftIn_sixteen (halfBits_length f), halfBits, msbFirst_append, msbFirst_byteBits, msbFirst_byteBits,
    byteBits_length, BitVec.extractLsb'_toNat, BitVec.extractLsb'_toNat, Nat.shiftRight_eq_div_pow]
  omega

/-- `FRAME` is a leader and the pulses of the two fields' bits. -/
theorem frame_expand (a c : Half) :
    (Pseudo.frame a c).expand = .pulse 9000 4000 :: pulses ((halfBits a ++ halfBits c).map bitPair) := by
  rw [pulses_bitPairs]
  simp [Pseudo.expand, bytePulses_eq, halfBits]

/-- Settles O46: the leader puts the count at 0 (`exec_pulse_frameBoundary`), and the 32 bits after it publish the two fields
(`runOps_pulses_complete`), which are the two operands (`foldl_shiftIn_halfBits`). -/
theorem frameDeliversItsDatagram : Obligations.FrameDeliversItsDatagram := by
  intro s a c ha hp
  have hleader : exec (.pulse 9000 4000) s = .next (resync s) := exec_pulse_frameBoundary ha (by decide)
  obtain ⟨t, hrun, h32, hunread, haddr, hcmd, hev⟩ := runOps_pulses_complete (s := resync s) ha
    (map_dataBit_bitPairs (halfBits a ++ halfBits c)) (by simp) rfl (.inl hp)
  have hta : t.addressField = a := haddr.trans (foldl_shiftIn_halfBits a s.highWord)
  have htc : t.commandField = c := hcmd.trans (foldl_shiftIn_halfBits c s.lowWord)
  refine ⟨t, ?_, hta, htc, hunread, h32, ?_⟩
  · rw [frame_expand, runOps_cons hleader, hrun]
  · rw [hev, htc, commandIdOf_eq_shift]
    rfl

end Sys2Proof.Proofs
end

section
/-! # What cannot be observed

Two runs of the same operations, from states that differ in what is never seen: the accumulators at count 0, the deadline of
an idle tracker, the protocol before attachment (R40, R126, R147), and the source's own count beyond 32 (R121). Each is a
relation between the two states that every operation keeps. -/

open Sys2Proof Sys2Proof.Machine

namespace Sys2Proof.Proofs

variable {s s' t : State} {i : Instr}

/-- The operation leads from the two states to two states that are related. -/
def StepsTo (R : State → State → Prop) (i : Instr) (s s' : State) : Prop :=
  ∃ t t', exec i s = .next t ∧ exec i s' = .next t' ∧ R t t'

/-- A relation that every operation keeps, a run keeps. -/
theorem runOps_simulates {R : State → State → Prop} (hR : ∀ i s s', R s s' → StepsTo R i s s') (h : R s s')
    (is : List Instr) : ∃ t t', runOps is s = .next t ∧ runOps is s' = .next t' ∧ R t t' := by
  induction is generalizing s s' with
  | nil => exact ⟨s, s', rfl, rfl, h⟩
  | cons i is ih =>
    obtain ⟨u, u', he, he', hu⟩ := hR i s s' h
    rw [runOps_cons he, runOps_cons he']
    exact ih hu

/-! ## The assembler's own fields, which only `PULSE` reads (R222) -/

/-- `s` with the assembler at another point of another frame. -/
def withAssembler (n : FramePos) (hw lw : Half) (s : State) : State :=
  { s with bitsReceived := n, highWord := hw, lowWord := lw }

/-- The other operations do not read the assembler's fields. -/
theorem exec_withAssembler (hi : ∀ m sp, i ≠ .pulse m sp) (he : exec i s = .next t) (n : FramePos) (hw lw : Half) :
    exec i (withAssembler n hw lw s) = .next (withAssembler n hw lw t) := by
  cases i with
  | pulse m sp => exact absurd rfl (hi m sp)
  | attach p =>
    obtain ⟨_, _, h⟩ := exec_attach_reads p s.phase
    rw [h s rfl] at he
    cases he
    exact h _ rfl
  | detach =>
    obtain ⟨_, h⟩ := exec_detach_reads s.phase
    rw [h s rfl] at he
    cases he
    exact h _ rfl
  | tick =>
    obtain ⟨_, _, _, h⟩ := exec_tick_reads (monitorView s)
    rw [h s rfl] at he
    cases he
    exact h _ rfl
  | advance d => cases he; rfl
  | rdcmd => cases he; rfl
  | rdhex => cases he; rfl
  | takenew => cases he; rfl
  | cmdid b => cases he; rfl

/-- Nor do they write them. -/
theorem exec_assembler_eq (hi : ∀ m sp, i ≠ .pulse m sp) (he : exec i s = .next t) :
    t.bitsReceived = s.bitsReceived ∧ t.highWord = s.highWord ∧ t.lowWord = s.lowWord := by
  cases exec_move he with
  | endFrame m sp => exact absurd rfl (hi m sp)
  | quirk m sp => exact absurd rfl (hi m sp)
  | high m sp => exact absurd rfl (hi m sp)
  | low m sp => exact absurd rfl (hi m sp)
  | complete m sp => exact absurd rfl (hi m sp)
  | _ => exact ⟨rfl, rfl, rfl⟩

/-! ## Stale accumulators (R126) -/

/-- The lowest `k` bits of two accumulators agree: those of the frame that is being received. -/
def SameLow (k : Nat) (w w' : Half) : Prop :=
  w'.toNat % 2 ^ k = w.toNat % 2 ^ k

theorem sameLow_zero (w w' : Half) : SameLow 0 w w' := by
  simp [SameLow, Nat.mod_one]

theorem SameLow.shiftIn {k : Nat} {w w' : Half} (h : SameLow k w w') (hk : k < 16) (b : Bool) :
    SameLow (k + 1) (shiftIn w b) (shiftIn w' b) := by
  rw [SameLow, shiftIn_mod_two_pow hk, shiftIn_mod_two_pow hk, h]

theorem SameLow.eq {w w' : Half} (h : SameLow 16 w w') : w' = w :=
  BitVec.eq_of_toNat_eq (by rwa [SameLow, Nat.mod_eq_of_lt w.isLt, Nat.mod_eq_of_lt w'.isLt] at h)

/-- The states differ at most in what the accumulators hold beyond the frame being received (R126): `highWord` takes the bits
of positions 1 to 16, `lowWord` those after. -/
def SameFrame (s s' : State) : Prop :=
  ∃ hw lw, s' = { s with highWord := hw, lowWord := lw } ∧
    SameLow (min s.bitsReceived.val 16) s.highWord hw ∧ SameLow (s.bitsReceived.val - 16) s.lowWord lw

/-- A data bit enters both frames at the same position, and the 32nd publishes the same fields. -/
theorem sameFrame_dataBit {m sp : Duration} {b : Bool} (ha : s.phase = .attached) (hd : dataBit (m, sp) = some b)
    (h : SameFrame s s') : StepsTo SameFrame (.pulse m sp) s s' := by
  obtain ⟨hw, lw, rfl, hhigh, hlow⟩ := h
  rcases appendBit_cases b s with ⟨h32, -⟩ | ⟨hlt, hp, rfl, -⟩ | ⟨hlt, hq, -⟩ | ⟨hge, hlt, -⟩ | ⟨h31, -⟩
  · exact ⟨_, _, exec_pulse_of_incomplete ha hd (appendBit_full h32),
      exec_pulse_of_incomplete ha hd (appendBit_full h32), hw, lw, rfl, hhigh, hlow⟩
  · exact ⟨_, _, exec_pulse_of_incomplete ha hd (appendBit_quirk hlt hp),
      exec_pulse_of_incomplete ha hd (appendBit_quirk hlt hp), 1, lw, rfl, rfl, sameLow_zero _ _⟩
  · have hn := nextPos_val_of_lt (p := s.bitsReceived) (by omega)
    refine ⟨_, _, exec_pulse_of_incomplete ha hd (appendBit_high hlt hq),
      exec_pulse_of_incomplete ha hd (appendBit_high hlt hq), shiftIn hw b, lw, rfl, ?_, ?_⟩
    · rw [Nat.min_eq_left hlt.le] at hhigh
      rw [placeHigh_bitsReceived, hn, Nat.min_eq_left hlt]
      exact hhigh.shiftIn hlt b
    · rw [placeHigh_bitsReceived, hn, Nat.sub_eq_zero_of_le hlt]
      exact sameLow_zero _ _
  · have hn := nextPos_val_of_lt (p := s.bitsReceived) (by omega)
    refine ⟨_, _, exec_pulse_of_incomplete ha hd (appendBit_low hge hlt),
      exec_pulse_of_incomplete ha hd (appendBit_low hge hlt), hw, shiftIn lw b, rfl, ?_, ?_⟩
    · rw [Nat.min_eq_right hge] at hhigh
      rwa [placeLow_bitsReceived, hn, Nat.min_eq_right (by omega)]
    · rw [placeLow_bitsReceived, hn, Nat.succ_sub hge]
      exact hlow.shiftIn (by omega) b
  · rw [h31] at hhigh hlow
    obtain rfl : hw = s.highWord := hhigh.eq
    have hlast : sourceShift lw b = sourceShift s.lowWord b := by
      rw [← shiftIn_eq_sourceShift, ← shiftIn_eq_sourceShift]
      exact (hlow.shiftIn (by decide) b).eq
    have hexec := completingBitPublishesDatagram { s with lowWord := lw } m sp b _ ha h31 hd rfl
    simp only [hlast] at hexec
    exact ⟨_, _, completingBitPublishesDatagram s m sp b _ ha h31 hd rfl, hexec, _, _, rfl, rfl, rfl⟩

/-- Every operation keeps the frame the same: a long duration begins another, a data bit enters it, and the other operations
do not look at it. -/
theorem sameFrame_stepsTo (i : Instr) (s s' : State) (h : SameFrame s s') : StepsTo SameFrame i s s' := by
  by_cases hi : ∃ m sp, i = .pulse m sp
  · obtain ⟨m, sp, rfl⟩ := hi
    by_cases ha : s.phase = .attached
    · rcases hd : dataBit (m, sp) with _ | b
      · obtain ⟨hw, lw, rfl, -⟩ := h
        have hlong := dataBit_eq_none_iff.mp hd
        exact ⟨_, _, longDurationsResynchronise s m sp ha hlong, longDurationsResynchronise _ m sp ha hlong,
          hw, lw, rfl, sameLow_zero _ _, sameLow_zero _ _⟩
      · exact sameFrame_dataBit ha hd h
    · obtain ⟨hw, lw, rfl, hagree⟩ := h
      exact ⟨_, _, exec_pulse_of_not_attached ha m sp,
        exec_pulse_of_not_attached (s := { s with highWord := hw, lowWord := lw }) ha m sp, hw, lw, rfl, hagree⟩
  · obtain ⟨hw, lw, rfl, hagree⟩ := h
    have hi' : ∀ m sp, i ≠ .pulse m sp := fun m sp h => hi ⟨m, sp, h⟩
    obtain ⟨t, he⟩ := exists_exec_next i s
    obtain ⟨hn, hh, hl⟩ := exec_assembler_eq hi' he
    refine ⟨t, _, he, exec_withAssembler hi' he s.bitsReceived hw lw, hw, lw, ?_, by rwa [hn, hh, hl]⟩
    rw [← hn]
    rfl

/-- Settles O47: at count 0 no bit of the accumulators belongs to the frame, so the two states are at the same frame
(`SameFrame`), which every operation keeps (`sameFrame_stepsTo`) and which leaves nothing else to differ in. -/
theorem staleAccumulatorsUnobservable : Obligations.StaleAccumulatorsUnobservable := by
  intro s hw lw ops h0
  have hstart : SameFrame s { s with highWord := hw, lowWord := lw } := by
    refine ⟨hw, lw, rfl, ?_, ?_⟩
    · rw [h0]; exact sameLow_zero _ _
    · rw [h0]; exact sameLow_zero _ _
  obtain ⟨t, t', hrun, hrun', _, _, rfl, -⟩ := runOps_simulates sameFrame_stepsTo hstart ops
  exact ⟨t, _, hrun, hrun', rfl, rfl, rfl, rfl⟩

/-! ## The deadline of an idle tracker (R147) -/

/-- While `Idle` no operation reads the deadline: `TICK`, which does when a button is pressed, is then without effect. -/
theorem exec_withDeadline_of_idle (hs : tracker s = none) (he : exec i s = .next t) (dl : Nat) :
    ∃ dl', exec i { s with repeatDeadline := dl } = .next { t with repeatDeadline := dl' } := by
  cases i with
  | pulse m sp =>
    obtain ⟨_, _, _, _, _, _, deadline, _, h⟩ := exec_pulse_reads m sp (captureView s)
    rw [h s rfl] at he
    cases he
    exact ⟨deadline.getD dl, h _ rfl⟩
  | tick =>
    have hidle : s.activeValid = false := tracker_eq_none_iff.mp hs
    obtain ⟨-, hnothing⟩ := tickReleasesPastDeadline s
    obtain ⟨-, hnothing'⟩ := tickReleasesPastDeadline { s with repeatDeadline := dl }
    rw [hnothing (.inr (.inl hidle))] at he
    cases he
    exact ⟨dl, hnothing' (.inr (.inl hidle))⟩
  | attach p =>
    obtain ⟨_, _, h⟩ := exec_attach_reads p s.phase
    rw [h s rfl] at he
    cases he
    exact ⟨dl, h _ rfl⟩
  | detach =>
    obtain ⟨_, h⟩ := exec_detach_reads s.phase
    rw [h s rfl] at he
    cases he
    exact ⟨dl, h _ rfl⟩
  | advance d => cases he; exact ⟨dl, rfl⟩
  | rdcmd => cases he; exact ⟨dl, rfl⟩
  | rdhex => cases he; exact ⟨dl, rfl⟩
  | takenew => cases he; exact ⟨dl, rfl⟩
  | cmdid b => cases he; exact ⟨dl, rfl⟩

/-- The states are the same, or both are `Idle` and differ in the deadline only. -/
def SameButIdleDeadline (s s' : State) : Prop :=
  s' = s ∨ (tracker s = none ∧ ∃ dl, s' = { s with repeatDeadline := dl })

/-- A completion presses and loads the deadline in both states, which are then the same; no other operation takes the tracker
out of `Idle`. -/
theorem sameButIdleDeadline_stepsTo (i : Instr) (s s' : State) (h : SameButIdleDeadline s s') :
    StepsTo SameButIdleDeadline i s s' := by
  rcases h with rfl | ⟨hs, dl, rfl⟩
  · obtain ⟨t, he⟩ := exists_exec_next i s'
    exact ⟨t, t, he, he, .inl rfl⟩
  · obtain ⟨t, he⟩ := exists_exec_next i s
    rcases exec_tracker_cases he with ⟨m, sp, c, rfl, hc, -, -⟩ | ⟨c, -, hpressed, -, -⟩ | ⟨htrk, -⟩
    · obtain ⟨ha, h31, b, hd, hcmd⟩ := hc
      exact ⟨_, _, completingBitPublishesDatagram s m sp b c ha h31 hd hcmd,
        completingBitPublishesDatagram _ m sp b c ha h31 hd hcmd, .inl rfl⟩
    · simp [hs] at hpressed
    · obtain ⟨dl', he'⟩ := exec_withDeadline_of_idle hs he dl
      exact ⟨t, _, he, he', .inr ⟨htrk.trans hs, dl', rfl⟩⟩

/-- Settles O49: the relation holds at the start and every operation keeps it (`sameButIdleDeadline_stepsTo`). -/
theorem idleDeadlineUnobservable : Obligations.IdleDeadlineUnobservable := by
  intro s dl ops hs
  obtain ⟨t, t', hrun, hrun', h⟩ := runOps_simulates sameButIdleDeadline_stepsTo (.inr ⟨hs, dl, rfl⟩) ops
  refine ⟨t, t', hrun, hrun', ?_⟩
  rcases h with rfl | ⟨-, dl', rfl⟩
  · exact ⟨rfl, rfl, rfl⟩
  · exact ⟨rfl, rfl, rfl⟩

/-! ## The reset values (R40) -/

/-- The states are the same, or both are `Unattached` and differ in the protocol only. -/
def SameButUnselectedProtocol (s s' : State) : Prop :=
  s' = s ∨ (s.phase = .unattached ∧ ∃ p, s' = { s with protocol := p })

/-- Before attachment nothing reads the protocol, and `ATTACH` writes it. -/
theorem sameButUnselectedProtocol_stepsTo (i : Instr) (s s' : State) (h : SameButUnselectedProtocol s s') :
    StepsTo SameButUnselectedProtocol i s s' := by
  rcases h with rfl | ⟨hun, p, rfl⟩
  · obtain ⟨t, he⟩ := exists_exec_next i s'
    exact ⟨t, t, he, he, .inl rfl⟩
  · have ha : s.phase ≠ .attached := by simp [hun]
    cases i with
    | attach q =>
      obtain ⟨hselects, -⟩ := attachSelectsProtocolOnce s q
      obtain ⟨hselects', -⟩ := attachSelectsProtocolOnce { s with protocol := p } q
      exact ⟨_, _, hselects hun, hselects' hun, .inl rfl⟩
    | detach =>
      exact ⟨_, _, exec_detach_of_not_attached ha, exec_detach_of_not_attached ha, .inr ⟨hun, p, rfl⟩⟩
    | pulse m sp =>
      exact ⟨_, _, exec_pulse_of_not_attached ha m sp,
        exec_pulse_of_not_attached (s := { s with protocol := p }) ha m sp, .inr ⟨hun, p, rfl⟩⟩
    | tick => exact ⟨_, _, exec_tick_of_not_attached ha, exec_tick_of_not_attached ha, .inr ⟨hun, p, rfl⟩⟩
    | advance d => exact ⟨_, _, rfl, rfl, .inr ⟨hun, p, rfl⟩⟩
    | rdcmd => exact ⟨_, _, rfl, rfl, .inr ⟨hun, p, rfl⟩⟩
    | rdhex => exact ⟨_, _, rfl, rfl, .inr ⟨hun, p, rfl⟩⟩
    | takenew => exact ⟨_, _, rfl, rfl, .inr ⟨hun, p, rfl⟩⟩
    | cmdid b => exact ⟨_, _, rfl, rfl, .inr ⟨hun, p, rfl⟩⟩

/-- Before attachment the protocol cannot be observed, over any run. -/
theorem unselectedProtocol_unobservable (hun : s.phase = .unattached) (p : Protocol) (is : List Instr) :
    ∃ t t', runOps is s = .next t ∧ runOps is { s with protocol := p } = .next t' ∧
      t'.events = t.events ∧ t'.returns = t.returns := by
  obtain ⟨t, t', hrun, hrun', h⟩ :=
    runOps_simulates sameButUnselectedProtocol_stepsTo (.inr ⟨hun, p, rfl⟩) is
  refine ⟨t, t', hrun, hrun', ?_⟩
  rcases h with rfl | ⟨-, q, rfl⟩
  · exact ⟨rfl, rfl⟩
  · exact ⟨rfl, rfl⟩

/-- Settles O48: the four fields are changed one group after the other, and no change can be observed: the protocol, which is
not selected yet (`unselectedProtocol_unobservable`), the accumulators, since the count is 0
(`staleAccumulatorsUnobservable`), and the deadline, since the tracker is `Idle` (`idleDeadlineUnobservable`). -/
theorem resetValuesUnobservable : Obligations.ResetValuesUnobservable := by
  intro now0 dl p hw lw ops
  obtain ⟨t, u, ht, hu, hev, hret⟩ := unselectedProtocol_unobservable (s := State.resetAt now0) rfl p ops
  obtain ⟨u', v, hu', hv, hev', hret', -, -⟩ :=
    staleAccumulatorsUnobservable { State.resetAt now0 with protocol := p } hw lw ops rfl
  obtain ⟨v', w, hv', hw', hev'', hret'', -⟩ :=
    idleDeadlineUnobservable { State.resetAt now0 with protocol := p, highWord := hw, lowWord := lw } dl ops rfl
  obtain rfl : u = u' := Host.Outcome.next.inj (hu.symm.trans hu')
  obtain rfl : v = v' := Host.Outcome.next.inj (hv.symm.trans hv')
  exact ⟨t, w, ht, hw', (hev''.trans hev').trans hev, (hret''.trans hret').trans hret⟩

/-! ## The source's unbounded count (R121) -/

/-- The machine's state for one of the source's own assembler: every count of 33 or more is 32. -/
def guarded (u : Unguarded) : State :=
  { u.st with bitsReceived := clampCount u.count }

theorem clampCount_of_le {n : Nat} (h : n ≤ 32) : (clampCount n).val = n :=
  Nat.min_eq_left h

theorem clampCount_of_ge {n : Nat} (h : 32 ≤ n) : clampCount n = 32 :=
  Fin.ext (Nat.min_eq_right h)

theorem nextPos_clampCount {n : Nat} (h : n < 32) : nextPos (clampCount n) = clampCount (n + 1) := by
  apply Fin.ext
  rw [nextPos_val_of_lt (by rwa [clampCount_of_le h.le]), clampCount_of_le h.le, clampCount_of_le h]

section Unguarded

variable {u : Unguarded} {b : Bool}

theorem appendUnguarded_quirk (h : u.count < 8) (hp : u.st.protocol = .zeroAddressVariant) :
    appendUnguarded true u = (.incomplete, { count := 9, st := { u.st with highWord := 1 } }) := by
  simp [appendUnguarded, hp]
  omega

theorem appendUnguarded_high (h : u.count < 16)
    (hq : ¬(u.count < 8 ∧ u.st.protocol = .zeroAddressVariant ∧ b = true)) :
    appendUnguarded b u =
      (.incomplete, { count := u.count + 1, st := { u.st with highWord := shiftIn u.st.highWord b } }) := by
  by_cases h8 : u.count < 8
  · have hq' : ¬(u.st.protocol = .zeroAddressVariant ∧ b = true) := fun hz => hq ⟨h8, hz⟩
    simp only [appendUnguarded]
    rw [if_pos (by omega), if_neg hq']
  · simp only [appendUnguarded]
    rw [if_neg (by omega), if_pos (by omega)]

theorem appendUnguarded_low (h : 16 ≤ u.count) (h' : u.count < 31) :
    appendUnguarded b u =
      (.incomplete, { count := u.count + 1, st := { u.st with lowWord := shiftIn u.st.lowWord b } }) := by
  simp only [appendUnguarded]
  rw [if_neg (by omega), if_neg (by omega), if_pos (by omega)]

theorem appendUnguarded_last (h : u.count = 31) :
    appendUnguarded b u = (.complete, { count := 32, st := { u.st with
      lowWord := shiftIn u.st.lowWord b, addressField := u.st.highWord,
      commandField := shiftIn u.st.lowWord b } }) := by
  simp [appendUnguarded, h]

theorem appendUnguarded_past (h : 32 ≤ u.count) :
    appendUnguarded b u = (.incomplete, { count := u.count + 1, st := u.st }) := by
  simp only [appendUnguarded]
  rw [if_neg (by omega), if_neg (by omega), if_neg (by omega), if_neg (by omega)]

/-- Below 32 the source's assembler and the guarded one do the same, and from 32 on neither does anything but count. -/
theorem appendBit_guarded (b : Bool) (u : Unguarded) :
    appendBit b (guarded u) = ((appendUnguarded b u).1, guarded (appendUnguarded b u).2) := by
  rcases Nat.lt_or_ge u.count 32 with hlt | hge
  · have hc : (guarded u).bitsReceived.val = u.count := clampCount_of_le hlt.le
    have hn : nextPos (guarded u).bitsReceived = clampCount (u.count + 1) := nextPos_clampCount hlt
    rcases appendBit_cases b (guarded u) with ⟨h32, -⟩ | ⟨h8, hp, rfl, h⟩ | ⟨h16, hq, h⟩ | ⟨h16, h31, h⟩ | ⟨h31, h⟩
    · omega
    · rw [h, appendUnguarded_quirk (by omega) hp]
      rfl
    · rw [h, appendUnguarded_high (by omega) (by rwa [← hc]), hn]
      rfl
    · rw [h, appendUnguarded_low (by omega) (by omega), hn]
      rfl
    · rw [h, appendUnguarded_last (by omega)]
      rfl
  · have h32 : (guarded u).bitsReceived = 32 := clampCount_of_ge hge
    rw [appendBit_full (congrArg Fin.val h32), appendUnguarded_past hge, guarded, guarded, clampCount_of_ge hge,
      clampCount_of_ge (Nat.le_succ_of_le hge)]

/-- The completion handler does not read the count. -/
theorem onComplete_guarded (u : Unguarded) : onComplete (guarded u) = guarded { u with st := onComplete u.st } := by
  rw [onComplete_eq, guarded, guarded, onComplete_eq]
  rfl

/-- `PULSE` over the guarded assembler is `PULSE` over the source's, guarded. -/
theorem exec_pulse_guarded (m sp : Duration) (u : Unguarded) :
    exec (.pulse m sp) (guarded u) = .next (guarded (pulseUnguarded m sp u)) := by
  by_cases ha : u.st.phase = .attached
  · rcases hd : dataBit (m, sp) with _ | b
    · rw [longDurationsResynchronise (guarded u) m sp ha (dataBit_eq_none_iff.mp hd)]
      simp only [pulseUnguarded, ha, hd, if_true]
      split
      · rfl
      · rfl
    · rw [exec_pulse_of_dataBit (s := guarded u) ha hd, appendBit_guarded]
      simp only [pulseUnguarded, ha, hd, if_true]
      rcases appendUnguarded b u with ⟨status, v⟩
      cases status with
      | complete => exact congrArg _ (onComplete_guarded v)
      | incomplete => rfl
      | repeated => rfl
  · rw [exec_pulse_of_not_attached (s := guarded u) ha, pulseUnguarded, if_neg ha]

theorem runUnguarded_cons {is : List Instr} (hi : ∀ m sp, i ≠ .pulse m sp) (he : exec i u.st = .next t) :
    runUnguarded (i :: is) u = runUnguarded is { u with st := t } := by
  cases i with
  | pulse m sp => exact absurd rfl (hi m sp)
  | _ => simp only [runUnguarded, he]

/-- The two runs stay together. -/
theorem runOps_guarded (is : List Instr) (u : Unguarded) :
    ∃ v, runUnguarded is u = some v ∧ runOps is (guarded u) = .next (guarded v) := by
  induction is generalizing u with
  | nil => exact ⟨u, rfl, rfl⟩
  | cons i is ih =>
    by_cases hi : ∃ m sp, i = .pulse m sp
    · obtain ⟨m, sp, rfl⟩ := hi
      rw [runOps_cons (exec_pulse_guarded m sp u)]
      exact ih (pulseUnguarded m sp u)
    · have hi' : ∀ m sp, i ≠ .pulse m sp := fun m sp h => hi ⟨m, sp, h⟩
      obtain ⟨t, he⟩ := exists_exec_next i u.st
      obtain ⟨-, hh, hl⟩ := exec_assembler_eq hi' he
      have hg : exec i (guarded u) = .next (guarded { u with st := t }) := by
        have ht : withAssembler (clampCount u.count) u.st.highWord u.st.lowWord t = guarded { u with st := t } := by
          rw [← hh, ← hl]
          rfl
        exact (exec_withAssembler hi' he (clampCount u.count) u.st.highWord u.st.lowWord).trans (congrArg _ ht)
      rw [runUnguarded_cons hi' he, runOps_cons hg]
      exact ih { u with st := t }

end Unguarded

/-- Settles O50: `PULSE` keeps the two assemblers together (`exec_pulse_guarded`) and the other operations do not look at
them (`exec_withAssembler`), so the runs stay together from the machine's own count on (`runOps_guarded`). -/
theorem unguardedAssemblerAgrees : Obligations.UnguardedAssemblerAgrees := by
  intro ops s
  obtain ⟨⟨c, u⟩, hrun, hrun'⟩ := runOps_guarded ops { count := s.bitsReceived.val, st := s }
  have hs : guarded { count := s.bitsReceived.val, st := s } = s := by
    have hc : clampCount s.bitsReceived.val = s.bitsReceived := Fin.ext (clampCount_of_le (by omega))
    rw [guarded, hc]
  rw [hs] at hrun'
  exact ⟨c, u, hrun, hrun'⟩

end Sys2Proof.Proofs
end

section
/-! # The latency of a release

While a button is pressed and nothing refreshes its deadline, no `TICK` has been later than the deadline: the first that is
releases the button (R160, R161, R164). -/

open Sys2Proof Sys2Proof.Machine

namespace Sys2Proof.Proofs

variable {s t : State} {i : Instr} {is : List Instr} {m sp : Duration} {c : CommandId} {activeMs idleMs last : Nat}

/-- The completing bit is the one that reports `Complete` (R101, R124). -/
theorem pulseChain_status_of_completes (hc : completes m sp s c) : (pulseChain m sp s).1 = .complete := by
  obtain ⟨-, h31, b, hd, -⟩ := hc
  simp only [pulseChain, classify_dataBit hd, afterSymbol, appendBit_last h31, afterBit]

/-- An operation that keeps the deadline completes no datagram. -/
theorem not_completes_of_keepsDeadline (hk : keepsDeadline i s = true) (hi : i = .pulse m sp) : ¬ completes m sp s c := by
  intro hc
  subst hi
  rw [keepsDeadline, pulseChain_status_of_completes hc] at hk
  exact absurd hk (by decide)

theorem exec_repeatDeadline_of_keepsDeadline (hk : keepsDeadline i s = true) (he : exec i s = .next t) :
    t.repeatDeadline = s.repeatDeadline := by
  by_contra hne
  obtain ⟨-, hpulse, -⟩ := writesFollowOwnership i s t he
  obtain ⟨m, sp, rfl⟩ := hpulse (by simp [hne])
  refine hne ?_
  by_cases ha : s.phase = .attached
  · rw [exec_pulse, whenAttached_of_attached ha] at he
    cases he
    rcases pulseChain_cases m sp s with ⟨-, h⟩ | ⟨-, -, h⟩ | ⟨b, -, -, h⟩ | ⟨b, -, -, h⟩
    · rw [h]; rfl
    · simp [keepsDeadline, h] at hk
    · rw [h, appendBit_toButtonTrackerState]
    · simp [keepsDeadline, h] at hk
  · rw [exec_pulse_of_not_attached ha] at he
    cases he
    rfl

theorem exec_attached_of_keepsDeadline (ha : s.phase = .attached) (hk : keepsDeadline i s = true)
    (he : exec i s = .next t) : t.phase = .attached := by
  rcases phaseAndProtocolMoveOnlyByHost i s t he with ⟨hph, -⟩ | ⟨p, -, -, hph, -⟩ | ⟨rfl, -⟩
  · rw [hph, ha]
  · exact hph
  · simp [keepsDeadline] at hk

theorem noCompletion_of_awaitsRelease (h : awaitsRelease activeMs idleMs is s last) : noCompletion is s := by
  induction is generalizing s last with
  | nil => trivial
  | cons i is ih =>
    obtain ⟨-, hk, hrest⟩ := h
    exact ⟨fun m sp c hi => not_completes_of_keepsDeadline hk hi, fun t he => ih (hrest t he)⟩

/-- A `TICK` that leaves the button pressed is no later than the deadline (R160). -/
theorem now_le_repeatDeadline_of_tick (ha : s.phase = .attached) (hs : tracker s = some c) (he : exec .tick s = .next t)
    (ht : tracker t = some c) : s.now ≤ s.repeatDeadline := by
  by_contra hlate
  obtain ⟨-, -, hpressed⟩ := exec_tick_tracker ha he
  obtain ⟨hrelease, -⟩ := hpressed c hs
  obtain ⟨hidle, -⟩ := hrelease (Nat.not_le.mp hlate)
  simp [hidle] at ht

/-- From a pressed state whose last `TICK` was no later than the deadline: over a run that awaits the release, `now` passes the
deadline and the longer period only with the button released. -/
theorem released_of_awaitsRelease (ha : s.phase = .attached) (hs : tracker s = some c) (hlast : last ≤ s.repeatDeadline)
    (hw : awaitsRelease activeMs idleMs is s last) (hrun : runOps is s = .next t)
    (hlate : s.repeatDeadline + max activeMs idleMs < t.now) :
    .buttonReleased c ∈ t.events.drop s.events.length ∧ tracker t = none := by
  induction is generalizing s last with
  | nil =>
    have hnow : s.now ≤ last + max activeMs idleMs := hw
    cases hrun
    omega
  | cons i is ih =>
    obtain ⟨u, he⟩ := exists_exec_next i s
    rw [runOps_cons he] at hrun
    obtain ⟨-, hk, hrest⟩ := hw
    have hw' := hrest u he
    rcases exec_tracker_cases he with ⟨m, sp, d, hi, hc, -⟩ | ⟨d, rfl, hd, hu, hev⟩ | ⟨hu, hev⟩
    · exact absurd hc (not_completes_of_keepsDeadline hk hi)
    · obtain rfl : c = d := Option.some.inj (hs.symm.trans hd)
      obtain ⟨v, hrunv, hvev, hv⟩ := runOps_silent_of_noCompletion hu (noCompletion_of_awaitsRelease hw')
      obtain rfl : v = t := Host.Outcome.next.inj (hrunv.symm.trans hrun)
      exact ⟨by simp [hvev, hev], hv⟩
    · have hdl := exec_repeatDeadline_of_keepsDeadline hk he
      have hlast' : (if i = .tick then s.now else last) ≤ u.repeatDeadline := by
        rw [hdl]
        split
        · next hi =>
          subst hi
          exact now_le_repeatDeadline_of_tick ha hs he (hu.trans hs)
        · exact hlast
      rw [← hev]
      exact ih (exec_attached_of_keepsDeadline ha hk he) (hu.trans hs) hlast' hw' hrun (by rwa [hdl])

/-- Settles O51: the deadline is 120 ms after the refresh, and no `TICK` was later than it when the run begins
(`released_of_awaitsRelease`). -/
theorem releaseWithinLatencyBound : Obligations.ReleaseWithinLatencyBound := by
  intro activeMs idleMs last ops s t c ha hs hdl hlast hw hrun hlate
  exact released_of_awaitsRelease ha hs (by omega) hw hrun (by omega)

end Sys2Proof.Proofs
end
